-- ==== Sys2Proof/Word.lean ====
section
/-!
DEFINITION. The word types of the block (spec/00_scope.md R6, R7): every value is an unsigned integer of a stated width.
-/

namespace Sys2Proof

/-- One byte: a memory cell, a general register, a timer, an immediate `kk` (R6, R64). -/
abbrev Byte := BitVec 8

/-- One 16-bit word: an opcode, `pc`, `I`, a stack cell (R6, R62). -/
abbrev Word := BitVec 16

/-- A 12-bit address field `nnn` (R63). -/
abbrev Addr := BitVec 12

/-- The index of a general register, V0 to VF (R18), or of a key (R31). -/
abbrev RegIdx := Fin 16

/-- VF, the flag register, is V[15] (R20). -/
abbrev vf : RegIdx := 15

end Sys2Proof
end

