-- ==== Sys2Proof/Syntax.lean ====
section
/-!
DEFINITION. The abstract syntax: one constructor per row of spec/opcode_table.json (spec/00_scope.md R2, 34 classes).
The operands are the fields each row lists (spec/30_encoding.md R63, R64).
-/

namespace Sys2Proof

/-- One instruction with its operands (R2). -/
inductive Instr where
  /-- CLS (R106). -/
  | cls
  /-- RET (R79). -/
  | ret
  /-- JP addr (R80). -/
  | jp (nnn : Addr)
  /-- CALL addr (R81). -/
  | call (nnn : Addr)
  /-- SE Vx, kk (R82). -/
  | seImm (x : RegIdx) (kk : Byte)
  /-- SNE Vx, kk (R83). -/
  | sneImm (x : RegIdx) (kk : Byte)
  /-- SE Vx, Vy (R84). -/
  | seReg (x y : RegIdx)
  /-- LD Vx, kk (R91). -/
  | ldImm (x : RegIdx) (kk : Byte)
  /-- ADD Vx, kk (R92). -/
  | addImm (x : RegIdx) (kk : Byte)
  /-- LD Vx, Vy (R93). -/
  | ldReg (x y : RegIdx)
  /-- OR Vx, Vy (R94). -/
  | orReg (x y : RegIdx)
  /-- AND Vx, Vy (R95). -/
  | andReg (x y : RegIdx)
  /-- XOR Vx, Vy (R96). -/
  | xorReg (x y : RegIdx)
  /-- ADD Vx, Vy (R97). -/
  | addReg (x y : RegIdx)
  /-- SUB Vx, Vy (R98). -/
  | subReg (x y : RegIdx)
  /-- SHR Vx, Vy (R99); y is read only when SHIFT_COPIES_VY is true. -/
  | shr (x y : RegIdx)
  /-- SUBN Vx, Vy (R100). -/
  | subnReg (x y : RegIdx)
  /-- SHL Vx, Vy (R101); y is read only when SHIFT_COPIES_VY is true. -/
  | shl (x y : RegIdx)
  /-- SNE Vx, Vy (R85). -/
  | sneReg (x y : RegIdx)
  /-- LD I, addr (R109). -/
  | ldI (nnn : Addr)
  /-- JP V0, addr, or Bnnn (R86): the row's two fields overlap, x is the top nibble of nnn. -/
  | jpOffset (nnn : Addr) (x : RegIdx)
  /-- RND Vx, kk (R102). -/
  | rnd (x : RegIdx) (kk : Byte)
  /-- DRW Vx, Vy, n (R107); n is a row count, 0..15. -/
  | drw (x y : RegIdx) (n : Fin 16)
  /-- SKP Vx (R87). -/
  | skp (x : RegIdx)
  /-- SKNP Vx (R88). -/
  | sknp (x : RegIdx)
  /-- LD Vx, DT (R110). -/
  | ldVxDt (x : RegIdx)
  /-- LD Vx, K (R113). -/
  | ldVxK (x : RegIdx)
  /-- LD DT, Vx (R111). -/
  | ldDtVx (x : RegIdx)
  /-- LD ST, Vx (R112). -/
  | ldStVx (x : RegIdx)
  /-- ADD I, Vx (R114). -/
  | addIVx (x : RegIdx)
  /-- LD F, Vx (R115). -/
  | ldFVx (x : RegIdx)
  /-- LD B, Vx (R116). -/
  | ldBVx (x : RegIdx)
  /-- LD [I], Vx (R117). -/
  | ldMemVx (x : RegIdx)
  /-- LD Vx, [I] (R118). -/
  | ldVxMem (x : RegIdx)
deriving DecidableEq, Repr

end Sys2Proof
end

