-- ==== Sys2Proof/Decode.lean ====
section
/-!
DEFINITION. The decoder (spec/30_encoding.md R62 to R74), total on every word and every byte string, then the encoder
of the canonical words (R77). The field positions and opcode values are the spec's decision D3.
-/

namespace Sys2Proof

/-! ### Fields (R63) -/

/-- The family F, opcode[15:12] (R63). -/
def fieldF (w : Word) : Fin 16 := (w.extractLsb 15 12).toFin

/-- The field x, opcode[11:8] (R63). -/
def fieldX (w : Word) : RegIdx := (w.extractLsb 11 8).toFin

/-- The field y, opcode[7:4] (R63). -/
def fieldY (w : Word) : RegIdx := (w.extractLsb 7 4).toFin

/-- The field n, opcode[3:0] (R63). -/
def fieldN (w : Word) : Fin 16 := (w.extractLsb 3 0).toFin

/-- The field kk, opcode[7:0] (R63). -/
def fieldKk (w : Word) : Byte := w.extractLsb 7 0

/-- The field nnn, opcode[11:0] (R63). -/
def fieldNnn (w : Word) : Addr := w.extractLsb 11 0

/-! ### Decoding -/

/-- Why the decoder rejects. -/
inductive DecodeError where
  /-- "An opcode value with no registered handler in its family" (R71). -/
  | unimplementedOpcode (w : Word)
  /-- Fewer than two bytes: no word to decode (R62). -/
  | truncated
deriving DecidableEq, Repr

/-- Family 0x0, keyed by the low nibble; bits 11:4 are not decoded (R67). -/
def decodeFamily0 (w : Word) : Except DecodeError Instr :=
  match fieldN w with
  | 0x0 => .ok .cls
  | 0xE => .ok .ret
  | _ => .error (.unimplementedOpcode w)

/-- Family 0x8, keyed by the low nibble (R68). -/
def decodeFamily8 (w : Word) : Except DecodeError Instr :=
  match fieldN w with
  | 0x0 => .ok (.ldReg (fieldX w) (fieldY w))
  | 0x1 => .ok (.orReg (fieldX w) (fieldY w))
  | 0x2 => .ok (.andReg (fieldX w) (fieldY w))
  | 0x3 => .ok (.xorReg (fieldX w) (fieldY w))
  | 0x4 => .ok (.addReg (fieldX w) (fieldY w))
  | 0x5 => .ok (.subReg (fieldX w) (fieldY w))
  | 0x6 => .ok (.shr (fieldX w) (fieldY w))
  | 0x7 => .ok (.subnReg (fieldX w) (fieldY w))
  | 0xE => .ok (.shl (fieldX w) (fieldY w))
  | _ => .error (.unimplementedOpcode w)

/-- Family 0xE, keyed by the low nibble; bits 7:4 are not decoded (R69). -/
def decodeFamilyE (w : Word) : Except DecodeError Instr :=
  match fieldN w with
  | 0x1 => .ok (.sknp (fieldX w))
  | 0xE => .ok (.skp (fieldX w))
  | _ => .error (.unimplementedOpcode w)

/-- Family 0xF, keyed by the low byte (R70). -/
def decodeFamilyF (w : Word) : Except DecodeError Instr :=
  match (fieldKk w).toNat with
  | 0x07 => .ok (.ldVxDt (fieldX w))
  | 0x0A => .ok (.ldVxK (fieldX w))
  | 0x15 => .ok (.ldDtVx (fieldX w))
  | 0x18 => .ok (.ldStVx (fieldX w))
  | 0x1E => .ok (.addIVx (fieldX w))
  | 0x29 => .ok (.ldFVx (fieldX w))
  | 0x33 => .ok (.ldBVx (fieldX w))
  | 0x55 => .ok (.ldMemVx (fieldX w))
  | 0x65 => .ok (.ldVxMem (fieldX w))
  | _ => .error (.unimplementedOpcode w)

/-- The first-level decode multiplexer, keyed on F (R65, R66). The last arm is F = 0xF. -/
def decodeWord (w : Word) : Except DecodeError Instr :=
  match fieldF w with
  | 0x0 => decodeFamily0 w
  | 0x1 => .ok (.jp (fieldNnn w))
  | 0x2 => .ok (.call (fieldNnn w))
  | 0x3 => .ok (.seImm (fieldX w) (fieldKk w))
  | 0x4 => .ok (.sneImm (fieldX w) (fieldKk w))
  | 0x5 => .ok (.seReg (fieldX w) (fieldY w))
  | 0x6 => .ok (.ldImm (fieldX w) (fieldKk w))
  | 0x7 => .ok (.addImm (fieldX w) (fieldKk w))
  | 0x8 => decodeFamily8 w
  | 0x9 => .ok (.sneReg (fieldX w) (fieldY w))
  | 0xA => .ok (.ldI (fieldNnn w))
  | 0xB => .ok (.jpOffset (fieldNnn w) (fieldX w))
  | 0xC => .ok (.rnd (fieldX w) (fieldKk w))
  | 0xD => .ok (.drw (fieldX w) (fieldY w) (fieldN w))
  | 0xE => decodeFamilyE w
  | _ => decodeFamilyF w

/-- The word two bytes make, big-endian: the byte at the lower address is opcode[15:8] (R49, R60). -/
def wordOfBytes (hi lo : Byte) : Word := hi ++ lo

/-- The high byte of a word, the one at the lower address (R49). -/
def hiByte (w : Word) : Byte := w.extractLsb 15 8

/-- The low byte of a word, the one at the higher address (R49). -/
def loByte (w : Word) : Byte := w.extractLsb 7 0

/-- The decoder on a byte string: one instruction of two bytes and the rest (R62, R74), or a rejection by name. -/
def decode : List Byte → Except DecodeError (Instr × List Byte)
  | hi :: lo :: rest =>
    match decodeWord (wordOfBytes hi lo) with
    | .ok i => .ok (i, rest)
    | .error e => .error e
  | _ => .error .truncated

/-- The decoder on a row's word as spec/opcode_table.json numbers its bits: bit 0 is the least significant bit of the
opcode, bits at nbits and above are 0. -/
def decodeTableWord (nbits w : Nat) : Option Instr :=
  let word : Word := BitVec.ofNat 16 (w % 2 ^ nbits)
  match decode [hiByte word, loByte word] with
  | .ok (i, _) => some i
  | .error _ => none

/-! ### Encoding (R77: the canonical words an assembler emits) -/

/-- A 4-bit field as bits (R62). -/
def nibbleBits (f : Fin 16) : BitVec 4 := BitVec.ofFin f

/-- The layout F, x, y, n (R62, first row). -/
def packXyn (F x y n : Fin 16) : Word := nibbleBits F ++ nibbleBits x ++ nibbleBits y ++ nibbleBits n

/-- The layout F, x, kk (R62, second row). -/
def packXkk (F x : Fin 16) (kk : Byte) : Word := nibbleBits F ++ nibbleBits x ++ kk

/-- The layout F, nnn (R62, third row). -/
def packNnn (F : Fin 16) (nnn : Addr) : Word := nibbleBits F ++ nnn

/-- The canonical word of an instruction (R77). -/
def encode : Instr → Word
  | .cls => 0x00E0
  | .ret => 0x00EE
  | .jp nnn => packNnn 0x1 nnn
  | .call nnn => packNnn 0x2 nnn
  | .seImm x kk => packXkk 0x3 x kk
  | .sneImm x kk => packXkk 0x4 x kk
  | .seReg x y => packXyn 0x5 x y 0x0
  | .ldImm x kk => packXkk 0x6 x kk
  | .addImm x kk => packXkk 0x7 x kk
  | .ldReg x y => packXyn 0x8 x y 0x0
  | .orReg x y => packXyn 0x8 x y 0x1
  | .andReg x y => packXyn 0x8 x y 0x2
  | .xorReg x y => packXyn 0x8 x y 0x3
  | .addReg x y => packXyn 0x8 x y 0x4
  | .subReg x y => packXyn 0x8 x y 0x5
  | .shr x y => packXyn 0x8 x y 0x6
  | .subnReg x y => packXyn 0x8 x y 0x7
  | .shl x y => packXyn 0x8 x y 0xE
  | .sneReg x y => packXyn 0x9 x y 0x0
  | .ldI nnn => packNnn 0xA nnn
  | .jpOffset nnn _ => packNnn 0xB nnn
  | .rnd x kk => packXkk 0xC x kk
  | .drw x y n => packXyn 0xD x y n
  | .skp x => packXkk 0xE x 0x9E
  | .sknp x => packXkk 0xE x 0xA1
  | .ldVxDt x => packXkk 0xF x 0x07
  | .ldVxK x => packXkk 0xF x 0x0A
  | .ldDtVx x => packXkk 0xF x 0x15
  | .ldStVx x => packXkk 0xF x 0x18
  | .addIVx x => packXkk 0xF x 0x1E
  | .ldFVx x => packXkk 0xF x 0x29
  | .ldBVx x => packXkk 0xF x 0x33
  | .ldMemVx x => packXkk 0xF x 0x55
  | .ldVxMem x => packXkk 0xF x 0x65

/-- The bits of an instruction's word that the decoder reads: those that select it and those of its fields (R72). -/
def decodedBits : Instr → Word
  | .cls => 0xF00F
  | .ret => 0xF00F
  | .jp _ => 0xFFFF
  | .call _ => 0xFFFF
  | .seImm _ _ => 0xFFFF
  | .sneImm _ _ => 0xFFFF
  | .seReg _ _ => 0xFFF0
  | .ldImm _ _ => 0xFFFF
  | .addImm _ _ => 0xFFFF
  | .ldReg _ _ => 0xFFFF
  | .orReg _ _ => 0xFFFF
  | .andReg _ _ => 0xFFFF
  | .xorReg _ _ => 0xFFFF
  | .addReg _ _ => 0xFFFF
  | .subReg _ _ => 0xFFFF
  | .shr _ _ => 0xFFFF
  | .subnReg _ _ => 0xFFFF
  | .shl _ _ => 0xFFFF
  | .sneReg _ _ => 0xFFF0
  | .ldI _ => 0xFFFF
  | .jpOffset _ _ => 0xFFFF
  | .rnd _ _ => 0xFFFF
  | .drw _ _ _ => 0xFFFF
  | .skp _ => 0xFF0F
  | .sknp _ => 0xFF0F
  | .ldVxDt _ => 0xFFFF
  | .ldVxK _ => 0xFFFF
  | .ldDtVx _ => 0xFFFF
  | .ldStVx _ => 0xFFFF
  | .addIVx _ => 0xFFFF
  | .ldFVx _ => 0xFFFF
  | .ldBVx _ => 0xFFFF
  | .ldMemVx _ => 0xFFFF
  | .ldVxMem _ => 0xFFFF

/-- The two bytes of an instruction as memory holds them (R49). -/
def encodeBytes (i : Instr) : List Byte := [hiByte (encode i), loByte (encode i)]

end Sys2Proof
end

