-- ==== Sys2Proof/Config.lean ====
section
/-!
DEFINITION. The configuration parameters of the block (spec/00_scope.md R6, second table; spec/10_state.md R35) and
its one free value, the random draw (spec/41_alu.md R103). The defaults of R6 stand in Machine/Defaults.lean.
-/

namespace Sys2Proof

/-- JUMP_OFFSET_REG (R6, R86): which register Bnnn adds to its address. -/
inductive JumpOffsetReg where
  | v0
  | vx
deriving DecidableEq, Repr

/-- VF_CONFLICT (R6, R22): what a flag instruction does that names VF as an operand. -/
inductive VfConflict where
  | fault
  | flagWins
  | resultWins
deriving DecidableEq, Repr

/-- KEY_INDEX_POLICY (R6, R87): what SKP and SKNP do with a key index above 15. -/
inductive KeyIndexPolicy where
  | fault
  | lowNibble
deriving DecidableEq, Repr

/-- FONT_DIGIT_POLICY (R6, R115): what LD F,Vx does with a digit above 15. -/
inductive FontDigitPolicy where
  | fault
  | unmasked
deriving DecidableEq, Repr

/-- LOW_MEMORY_WRITES (R6, R45): whether a store below 0x200 is allowed. -/
inductive LowMemoryWrites where
  | allow
  | fault
deriving DecidableEq, Repr

/-- The static configuration of one machine (R6, R35). -/
structure Config where
  /-- SHIFT_COPIES_VY: 8xy6 and 8xyE shift V[y] instead of V[x] (R99, R101). -/
  shiftCopiesVy : Bool
  /-- JUMP_OFFSET_REG (R86). -/
  jumpOffsetReg : JumpOffsetReg
  /-- LOADSTORE_INCREMENTS_I: Fx55 and Fx65 leave I advanced by x + 1 (R117, R118). -/
  loadStoreIncrementsI : Bool
  /-- ANOMALY_A_COMPAT: Fx15 and Fx1E use the register index, not its value (R111, R114). -/
  anomalyACompat : Bool
  /-- VF_CONFLICT (R22). -/
  vfConflict : VfConflict
  /-- KEY_INDEX_POLICY (R87, R88). -/
  keyIndexPolicy : KeyIndexPolicy
  /-- FONT_DIGIT_POLICY (R115). -/
  fontDigitPolicy : FontDigitPolicy
  /-- LOW_MEMORY_WRITES (R45). -/
  lowMemoryWrites : LowMemoryWrites
  /-- FONT: the 80 bytes memory holds at 0x50..0x9F after reset (R43). -/
  font : Vector Byte 80
deriving DecidableEq, Repr

/-- The free value of RND: the byte of the k-th draw (R103: "A model quantifies over every byte value for every
draw"). It has no body, so nothing can be proved of its values. DESIGN CHOICE, safe for a claim about
one run: log entry 2. -/
opaque Config.drawByte : Nat → Byte

end Sys2Proof
end

