-- ==== Sys2Proof/Machine/Defaults.lean ====
section
/-!
DEFINITION. The default configuration (spec/00_scope.md R6, second table) and the default font (spec/20_memory.md R43).
-/

namespace Sys2Proof.Machine

/-- FONT's default: 16 glyphs of 5 bytes, digit 0 first (the table of R43). The bytes are the spec's decision D18, from
general knowledge: log entry 7. -/
def defaultFont : Vector Byte 80 :=
  #v[0xF0, 0x90, 0x90, 0x90, 0xF0,
     0x20, 0x60, 0x20, 0x20, 0x70,
     0xF0, 0x10, 0xF0, 0x80, 0xF0,
     0xF0, 0x10, 0xF0, 0x10, 0xF0,
     0x90, 0x90, 0xF0, 0x10, 0x10,
     0xF0, 0x80, 0xF0, 0x10, 0xF0,
     0xF0, 0x80, 0xF0, 0x90, 0xF0,
     0xF0, 0x10, 0x20, 0x40, 0x40,
     0xF0, 0x90, 0xF0, 0x90, 0xF0,
     0xF0, 0x90, 0xF0, 0x10, 0xF0,
     0xF0, 0x90, 0xF0, 0x90, 0x90,
     0xE0, 0x90, 0xE0, 0x90, 0xE0,
     0xF0, 0x80, 0x80, 0x80, 0xF0,
     0xE0, 0x90, 0x90, 0x90, 0xE0,
     0xF0, 0x80, 0xF0, 0x80, 0xF0,
     0xF0, 0x80, 0xF0, 0x80, 0x80]

/-- The defaults of R6's configuration parameters. -/
def defaultConfig : Config where
  shiftCopiesVy := false
  jumpOffsetReg := .v0
  loadStoreIncrementsI := false
  anomalyACompat := false
  vfConflict := .fault
  keyIndexPolicy := .fault
  fontDigitPolicy := .fault
  lowMemoryWrites := .allow
  font := defaultFont

end Sys2Proof.Machine
end

