-- ==== Sys2Proof/Machine/State.lean ====
section
/-!
DEFINITION. The state of the block as plain data (spec/10_state.md R18 to R40), the fault kinds (spec/60_exceptions.md
R119), the reasons a step is refused, and the reset state (spec/10_state.md R37, spec/70_reset_and_hazards.md R138).
-/

namespace Sys2Proof.Machine

/-- The fault kinds of R119. A meaning answers `.fault k` where its rule says `raise Fault(k)`; `step` then takes the
fault as R121 says, and the status records the kind. Each is the spec's own, so each is safe: the block halts. -/
inductive Fault where
  /-- A fetch with pc + 1 >= 4096, an access through I with I + len > 4096, or a write below 0x200 when
  LOW_MEMORY_WRITES = fault. Raised by the fetch of any step, DRW, Fx33, Fx55 and Fx65. Safe. -/
  | outOfBounds
  /-- The fetched word is one of the illegal words of R71. Raised by decode. Safe. -/
  | unimplementedOpcode
  /-- CALL with SP = 16 (R81). Safe. -/
  | stackOverflow
  /-- RET with SP = 0 (R79). Safe. -/
  | stackUnderflow
  /-- A load of more than 3584 bytes. Raised by the host's load, never by a step (R139). Safe. -/
  | programTooLarge
  /-- A use the source calls undefined, under its `fault` policy: a VF operand conflict (R22), a key index above 15
  (R87, R88), a font digit above 15 (R115). Raised by 8xy4, 8xy5, 8xy6, 8xy7, 8xyE, Dxyn, Ex9E, ExA1, Fx29. Safe. -/
  | undefined
deriving DecidableEq, Repr

/-- Why a step is refused. -/
inductive Refusal where
  /-- An instruction without a meaning in this model, by its mnemonic. Raised by no arm of `exec`: every row has its
  meaning. Safe. -/
  | notModelled (mnemonic : String)
  /-- The block is halted with this kind: "A step request is refused and changes nothing" (R122). Raised by `step`
  alone. Safe: it is the spec's own refusal. -/
  | halted (kind : Fault)
deriving DecidableEq, Repr

/-- The run status (R33). -/
inductive Status where
  | running
  | halted (kind : Fault)
deriving DecidableEq, Repr

/-- Memory as the list of the cells that differ from what they hold at reset, in one canonical form (log entry 4):
see `Memory.wf` in Machine/Memory.lean. -/
abbrev Memory := List Host.Cell

/-- The display: 32 rows of 64 pixels, true meaning on (R32). -/
abbrev Display := Vector (Vector Bool 64) 32


/-- The state of the block: every piece of R37's table, the static configuration, and the model's draw counter. -/
structure State where
  /-- The general registers V0 to VF (R18). -/
  V : Vector Byte 16
  /-- The index register (R26). -/
  I : Word
  /-- The program counter (R24). -/
  pc : Word
  /-- The count of entries pushed, 0..16 (R27). -/
  SP : Fin 17
  /-- The return addresses; cells at and above SP are stale (R28). -/
  STACK : Vector Word 16
  /-- The delay timer (R29). -/
  DT : Byte
  /-- The sound timer (R30). -/
  ST : Byte
  /-- The key-pressed flags (R31). -/
  KEY : Vector Bool 16
  /-- The pixels, DISP[row][col] (R32). -/
  DISP : Display
  /-- The 4096 bytes of memory (R41, R42). -/
  mem : Memory
  /-- Running or Halted(kind) (R33). -/
  status : Status
  /-- The most recently fetched word: scratch that no rule reads across steps (R34, log entry 3). -/
  opcode : Word
  /-- The static configuration: no instruction reads or writes it as data (R35, log entry 1). -/
  config : Config
  /-- The model's own: how many random bytes have been drawn (R103, log entry 2). -/
  draws : Nat
deriving DecidableEq, Repr

/-- What a meaning and a step answer. -/
abbrev Out := Host.Outcome State Fault Refusal

/-- The reset state of a machine with a given configuration (R37, R138); `draws` is the model's own. -/
def State.resetWith (config : Config) (draws : Nat) : State where
  V := Vector.replicate 16 0
  I := 0
  pc := 0x200
  SP := 0
  STACK := Vector.replicate 16 0
  DT := 0
  ST := 0
  KEY := Vector.replicate 16 false
  DISP := Vector.replicate 32 (Vector.replicate 64 false)
  mem := []
  status := .running
  opcode := 0
  config := config
  draws := draws

/-- The machine right after reset, with the defaults of R6 (R138). -/
def State.reset : State := State.resetWith defaultConfig 0

end Sys2Proof.Machine
end

