-- ==== Sys2Proof/Machine/Memory.lean ====
section
/-!
DEFINITION. The 4096-byte memory (spec/20_memory.md R41 to R47) as a canonical list of cells: what an unlisted address
reads as, reading and writing one byte, and the canonical form.
-/

namespace Sys2Proof.Machine

/-- The size of memory, 4096 (R6, R41). -/
def memSize : Nat := 4096

/-- Where the font stands (R6, R42). -/
def fontBase : Nat := 0x50

/-- What an unlisted address reads as: its contents at reset, FONT at 0x50..0x9F and 0 elsewhere (R42). -/
def Memory.unlisted (font : Vector Byte 80) (a : Nat) : Byte :=
  if h : fontBase ≤ a ∧ a - fontBase < 80 then font[a - fontBase]'h.2 else 0

/-- The listed byte at an address, if any. -/
def Memory.lookup : Memory → Nat → Option Byte
  | [], _ => none
  | (b, v) :: rest, a => if a = b then some v else Memory.lookup rest a

/-- The byte at an address (R46, for an address inside memory). -/
def Memory.read (font : Vector Byte 80) (m : Memory) (a : Nat) : Byte :=
  (Memory.lookup m a).getD (Memory.unlisted font a)

/-- Set the byte at an address (R47), keeping the canonical form: writing what the unlisted address reads as removes
the entry. -/
def Memory.write (font : Vector Byte 80) : Memory → Nat → Byte → Memory
  | [], a, v => if v = Memory.unlisted font a then [] else [(a, v)]
  | (b, w) :: rest, a, v =>
    if a < b then
      if v = Memory.unlisted font a then (b, w) :: rest else (a, v) :: (b, w) :: rest
    else if a = b then
      if v = Memory.unlisted font a then rest else (a, v) :: rest
    else
      (b, w) :: Memory.write font rest a v

/-- The canonical form from an address on: addresses strictly rising, inside memory, and no entry equal to what its
unlisted address reads as. -/
def Memory.wfFrom (font : Vector Byte 80) : Nat → Memory → Bool
  | _, [] => true
  | lo, (a, v) :: rest =>
    decide (lo ≤ a) && decide (a < memSize) && decide (v ≠ Memory.unlisted font a) && Memory.wfFrom font (a + 1) rest

/-- The canonical form of a memory. -/
def Memory.wf (font : Vector Byte 80) (m : Memory) : Bool := Memory.wfFrom font 0 m

end Sys2Proof.Machine
end

