-- ==== Sys2Proof/Machine/Ops.lean ====
section
/-!
DEFINITION. The named operations of the block: registers, pc, stack, memory, display, fetch, timer tick and taking a fault.
-/

namespace Sys2Proof.Machine

/-! ### Registers and pc -/

/-- `V[x]` as a read (R9). -/
def State.reg (s : State) (x : RegIdx) : Byte := s.V[x]

/-- `V[x] <- b` (R9). -/
def State.setReg (s : State) (x : RegIdx) (b : Byte) : State := { s with V := s.V.set x.val b x.isLt }

/-- `I <- a` (R26). -/
def State.setI (s : State) (a : Word) : State := { s with I := a }

/-- `pc <- target` (R9). -/
def State.setPc (s : State) (target : Word) : State := { s with pc := target }

/-- The advance, with the fetched word kept as the opcode scratch (R61, R34). -/
def State.advance (s : State) (w : Word) : State := { s with pc := s.pc + 2, opcode := w }

/-- `skip`: pc <- pc + 2 (R10). -/
def State.skip (s : State) : State := { s with pc := s.pc + 2 }

/-- A conditional skip (R82 to R88). -/
def State.skipIf (s : State) (c : Bool) : State := if c then s.skip else s

/-- The rewind of a waiting LD Vx,K: pc <- pc - 2 (R113). -/
def State.rewind (s : State) : State := { s with pc := s.pc - 2 }

/-! ### Timers -/

/-- `DT <- v` (R29). -/
def State.setDT (s : State) (v : Byte) : State := { s with DT := v }

/-- `ST <- v` (R30). -/
def State.setST (s : State) (v : Byte) : State := { s with ST := v }

/-- One count down with a floor at 0 (R128). -/
def countDown (t : Byte) : Byte := if t > 0 then t - 1 else t

/-- The timer tick, step 5 of the cycle (R128). -/
def State.tick (s : State) : State := { s with DT := countDown s.DT, ST := countDown s.ST }

/-! ### The return-address stack -/

/-- CALL's push: `if SP == 16 then raise Fault(StackOverflow); STACK[SP] <- pc; SP <- SP + 1` (R81), then the rest. -/
def State.push (s : State) (k : State → Out) : Out :=
  if h : s.SP.val < 16 then
    k { s with STACK := s.STACK.set s.SP.val s.pc h, SP := ⟨s.SP.val + 1, by omega⟩ }
  else
    .fault .stackOverflow

/-- RET's pop: `if SP == 0 then raise Fault(StackUnderflow); SP <- SP - 1; pc <- STACK[SP]` (R79). The cell is not
cleared (R28). -/
def State.pop (s : State) : Out :=
  if h : 0 < s.SP.val then
    .next { s with SP := ⟨s.SP.val - 1, by omega⟩, pc := s.STACK[s.SP.val - 1] }
  else
    .fault .stackUnderflow

/-! ### Memory (R45 to R48) -/

/-- The byte at an address of memory (R46); an access is bounded by `checkRange` first. -/
def State.byteAt (s : State) (a : Nat) : Byte := Memory.read s.config.font s.mem a

/-- Whether `CheckRange(addr, len)` passes: addr + len <= 4096 on exact integers, and always for length 0 (R48). -/
def rangeOk (a len : Nat) : Bool := len == 0 || decide (a + len ≤ memSize)

/-- `CheckRange(addr, len)` before the rest of a handler (R48). -/
def checkRange (a len : Nat) (k : Out) : Out := if rangeOk a len then k else .fault .outOfBounds

/-- Whether LOW_MEMORY_WRITES lets a store reach an address (R45). -/
def writable (c : Config) (a : Nat) : Bool := c.lowMemoryWrites == .allow || decide (0x200 ≤ a)

/-- `MemWrite(addr, 1, v)` (R47). -/
def memWrite (s : State) (a : Nat) (v : Byte) : Out :=
  if a < memSize ∧ writable s.config a then
    .next { s with mem := Memory.write s.config.font s.mem a v }
  else
    .fault .outOfBounds

/-- Stores at increasing addresses, in order (R116, R117); the first store that faults ends the handler. -/
def storeBytes : State → Nat → List Byte → Out
  | s, _, [] => .next s
  | s, a, v :: vs =>
    match memWrite s a v with
    | .next s' => storeBytes s' (a + 1) vs
    | .fault k => .fault k
    | .refused r => .refused r

/-- V0..Vx loaded from memory at an address, in one write of the register file (R118). -/
def State.loadRegs (s : State) (x : RegIdx) (a : Nat) : State :=
  { s with V := Vector.ofFn fun i : RegIdx => if i ≤ x then s.byteAt (a + i.val) else s.reg i }

/-- V0..Vx as the bytes to store, V0 first (R117). -/
def State.regBlock (s : State) (x : RegIdx) : List Byte := s.V.toList.take (x.val + 1)

/-! ### Display (R104 to R108) -/

/-- One pixel (R32). -/
def Display.pixel (d : Display) (r : Fin 32) (c : Fin 64) : Bool := (d[r])[c]

/-- Invert one pixel (R107). -/
def Display.toggle (d : Display) (r : Fin 32) (c : Fin 64) : Display :=
  d.set r.val ((d[r]).set c.val (!Display.pixel d r c) c.isLt) r.isLt

/-- Every pixel off (R106). -/
def Display.clear : Display := Vector.replicate 32 (Vector.replicate 64 false)

/-- A row of the display reached from Y0, with wrap (R107). -/
def wrapRow (Y0 row : Nat) : Fin 32 := ⟨(Y0 + row) % 32, Nat.mod_lt _ (by decide)⟩

/-- A column of the display reached from X0, with wrap (R107). -/
def wrapCol (X0 col : Nat) : Fin 64 := ⟨(X0 + col) % 64, Nat.mod_lt _ (by decide)⟩

/-- Column `col` of a sprite byte, bit 7 leftmost (R105, the spec's decision D19). -/
def spriteBit (b : Byte) (col : Nat) : Bool := b.getLsbD (7 - col)

/-- The display and the collision seen so far, while a sprite is drawn (R107). -/
abbrev Blit := Display × Bool

/-- One column of one sprite row: a set bit inverts its pixel, and inverting a lit pixel is a collision (R107). -/
def blitBit (X0 Y0 row : Nat) (b : Byte) (acc : Blit) (col : Nat) : Blit :=
  if spriteBit b col then
    let r := wrapRow Y0 row
    let c := wrapCol X0 col
    (Display.toggle acc.1 r c, acc.2 || Display.pixel acc.1 r c)
  else
    acc

/-- One sprite row, its 8 columns in order (R107). -/
def blitRow (X0 Y0 : Nat) (byteOf : Nat → Byte) (acc : Blit) (row : Nat) : Blit :=
  (List.range 8).foldl (blitBit X0 Y0 row (byteOf row)) acc

/-- The sprite of n rows, the rows in order (R107). -/
def blit (X0 Y0 n : Nat) (byteOf : Nat → Byte) (d : Display) : Blit :=
  (List.range n).foldl (blitRow X0 Y0 byteOf) (d, false)

/-! ### Fetch, and taking a fault -/

/-- The word at pc, big-endian (R49, R60). -/
def State.fetchWord (s : State) : Word := wordOfBytes (s.byteAt s.pc.toNat) (s.byteAt (s.pc.toNat + 1))

/-- The fetch: OutOfBounds if pc + 1 >= 4096, on the exact sum (R60). -/
def State.fetch (s : State) : Except Fault Word :=
  if s.pc.toNat + 1 < memSize then .ok s.fetchWord else .error .outOfBounds

/-- The decode of a fetched word; an illegal word faults (R71, R73). -/
def decodeFetched (w : Word) : Except Fault Instr :=
  match decode [hiByte w, loByte w] with
  | .ok (i, _) => .ok i
  | .error _ => .error .unimplementedOpcode

/-- Taking a fault (R121): nothing of the step is committed and the only change is `status <- Halted(kind)`. It is
applied to the state before the step. There is no return from a fault but reset or load (R122, R125): see
Machine/HostPort.lean. -/
def State.takeFault (s : State) (k : Fault) : State := { s with status := .halted k }

/-- The end of a step whose handler answered: the tick after a success, the fault taken in the state before the step
(R59, R121). -/
def finishStep (s : State) : Out → Out
  | .next t => .next t.tick
  | .fault k => .next (s.takeFault k)
  | .refused r => .refused r

end Sys2Proof.Machine
end

