-- ==== Sys2Proof/Machine/Operands.lean ====
section
/-!
DEFINITION. Every operand form of the instruction set that depends on the configuration or on a policy, and the operand
values computed from a register.
-/

namespace Sys2Proof.Machine

/-- A 12-bit address zero-extended to 16 bits, never scaled (R64). -/
def zextAddr (nnn : Addr) : Word := nnn.setWidth 16

/-- A byte zero-extended to 16 bits (R8). -/
def zextByte (b : Byte) : Word := b.setWidth 16

/-- The register SHR and SHL shift: Vy when SHIFT_COPIES_VY, else Vx (R99, R101). -/
def shiftSource (c : Config) (x y : RegIdx) : RegIdx := if c.shiftCopiesVy then y else x

/-- The operand registers of SHR and SHL under the active configuration (R22). -/
def shiftOperands (c : Config) (x y : RegIdx) : List RegIdx := if c.shiftCopiesVy then [x, y] else [x]

/-- The register Bnnn adds: V0 or Vx (R86). -/
def jumpOffset (c : Config) (x : RegIdx) : RegIdx :=
  match c.jumpOffsetReg with
  | .v0 => 0
  | .vx => x

/-- The value Fx15 and Fx1E take: V[x], or the index x under ANOMALY_A_COMPAT (R111, R114). -/
def anomalyValue (s : State) (x : RegIdx) : Byte :=
  if s.config.anomalyACompat then BitVec.ofNat 8 x.val else s.reg x

/-- The low nibble of a byte as a key index (R87). -/
def lowNibble (b : Byte) : RegIdx := ⟨b.toNat % 16, Nat.mod_lt _ (by decide)⟩

/-- The key index V[x] of SKP and SKNP: above 15 it faults or takes the low nibble, as KEY_INDEX_POLICY says (R87). -/
def withKeyIndex (s : State) (x : RegIdx) (k : RegIdx → Out) : Out :=
  if (s.reg x).toNat > 15 ∧ s.config.keyIndexPolicy = .fault then .fault .undefined
  else k (lowNibble (s.reg x))

/-- The font digit V[x] of Fx29: above 15 it faults or is used as it is, as FONT_DIGIT_POLICY says (R115). -/
def withFontDigit (s : State) (x : RegIdx) (k : Byte → Out) : Out :=
  if (s.reg x).toNat > 15 ∧ s.config.fontDigitPolicy = .fault then .fault .undefined
  else k (s.reg x)

/-- The address of a glyph: 0x50 + 5 * d (R115). -/
def glyphAddr (d : Byte) : Word := BitVec.ofNat 16 (fontBase + 5 * d.toNat)

/-- The three decimal digits of a byte, hundreds first (R116). -/
def bcdDigits (v : Byte) : List Byte :=
  [BitVec.ofNat 8 (v.toNat / 100), BitVec.ofNat 8 (v.toNat / 10 % 10), BitVec.ofNat 8 (v.toNat % 10)]

/-- The lowest pressed key, if any (R113). -/
def lowestKey (keys : Vector Bool 16) : Option RegIdx := (List.finRange 16).find? fun k => keys[k]

/-- I after a register block of x + 1 bytes: advanced modulo 2^16 when LOADSTORE_INCREMENTS_I (R117, R118). -/
def State.advanceI (s : State) (x : RegIdx) : State :=
  if s.config.loadStoreIncrementsI then s.setI (s.I + BitVec.ofNat 16 (x.val + 1)) else s

end Sys2Proof.Machine
end

