-- ==== Sys2Proof/Machine/Flags.lean ====
section
/-!
DEFINITION. The flag register VF: the conflict check (spec/10_state.md R22), the write discipline (spec/41_alu.md R90)
and every result with its flag (spec/41_alu.md R97 to R101).
-/

namespace Sys2Proof.Machine

/-- A flag as the byte VF holds (R21). -/
def flagByte (f : Bool) : Byte := if f then 1 else 0

/-- Whether a flag instruction with these operand registers conflicts and VF_CONFLICT says fault (R22, R90). -/
def conflictFaults (c : Config) (ops : List RegIdx) : Bool := ops.contains vf && c.vfConflict == .fault

/-- `ConflictCheck(ops)` before the rest of a handler (R90). -/
def conflictCheck (c : Config) (ops : List RegIdx) (k : Out) : Out :=
  if conflictFaults c ops then .fault .undefined else k

/-- `WriteResultAndFlag(x, r, f)` (R90): the flag is written last, unless VF is the destination and result_wins. -/
def State.writeResultAndFlag (s : State) (x : RegIdx) (r : Byte) (f : Bool) : State :=
  if x = vf ∧ s.config.vfConflict = .resultWins then s.setReg vf r
  else (s.setReg x r).setReg vf (flagByte f)

/-- An 8-bit result with its flag. -/
structure Flagged where
  result : Byte
  flag : Bool
deriving DecidableEq, Repr

/-- ADD: the 9-bit sum, its low 8 bits, and whether it exceeds 255 (R97). -/
def addFlagged (a b : Byte) : Flagged where
  result := BitVec.ofNat 8 (a.toNat + b.toNat)
  flag := decide (a.toNat + b.toNat > 255)

/-- SUB: a - b modulo 256, and whether a > b strictly (R98). SUBN is the same with its operands exchanged (R100). -/
def subFlagged (a b : Byte) : Flagged where
  result := a - b
  flag := decide (a.toNat > b.toNat)

/-- SHR: the value shifted right by one, and its bit 0 (R99). -/
def shrFlagged (a : Byte) : Flagged where
  result := a >>> 1
  flag := a.getLsbD 0

/-- SHL: the value shifted left by one modulo 256, and its bit 7 (R101). -/
def shlFlagged (a : Byte) : Flagged where
  result := a <<< 1
  flag := a.getLsbD 7

/-- The flag ALU instructions after their conflict check (R90). -/
def flagOp (s : State) (ops : List RegIdx) (x : RegIdx) (f : Flagged) : Out :=
  conflictCheck s.config ops (.next (s.writeResultAndFlag x f.result f.flag))

end Sys2Proof.Machine
end

