-- ==== Sys2Proof/Machine/Alu.lean ====
section
/-!
DEFINITION. The ALU and register-transfer instructions (spec/41_alu.md R89 to R103).
-/

namespace Sys2Proof.Machine

/-- LD Vx, kk (R91). -/
def execLdImm (x : RegIdx) (kk : Byte) (s : State) : Out := .next (s.setReg x kk)

/-- ADD Vx, kk (R92): modulo 256, no flag. -/
def execAddImm (x : RegIdx) (kk : Byte) (s : State) : Out := .next (s.setReg x (s.reg x + kk))

/-- LD Vx, Vy (R93). -/
def execLdReg (x y : RegIdx) (s : State) : Out := .next (s.setReg x (s.reg y))

/-- OR Vx, Vy (R94). -/
def execOrReg (x y : RegIdx) (s : State) : Out := .next (s.setReg x (s.reg x ||| s.reg y))

/-- AND Vx, Vy (R95). -/
def execAndReg (x y : RegIdx) (s : State) : Out := .next (s.setReg x (s.reg x &&& s.reg y))

/-- XOR Vx, Vy (R96). -/
def execXorReg (x y : RegIdx) (s : State) : Out := .next (s.setReg x (s.reg x ^^^ s.reg y))

/-- ADD Vx, Vy (R97). -/
def execAddReg (x y : RegIdx) (s : State) : Out := flagOp s [x, y] x (addFlagged (s.reg x) (s.reg y))

/-- SUB Vx, Vy (R98). -/
def execSubReg (x y : RegIdx) (s : State) : Out := flagOp s [x, y] x (subFlagged (s.reg x) (s.reg y))

/-- SHR Vx {, Vy} (R99). -/
def execShr (x y : RegIdx) (s : State) : Out :=
  flagOp s (shiftOperands s.config x y) x (shrFlagged (s.reg (shiftSource s.config x y)))

/-- SUBN Vx, Vy (R100). -/
def execSubnReg (x y : RegIdx) (s : State) : Out := flagOp s [x, y] x (subFlagged (s.reg y) (s.reg x))

/-- SHL Vx {, Vy} (R101). -/
def execShl (x y : RegIdx) (s : State) : Out :=
  flagOp s (shiftOperands s.config x y) x (shlFlagged (s.reg (shiftSource s.config x y)))

/-- RND Vx, kk (R102): the next free byte, masked; the draw is consumed (R103). -/
def execRnd (x : RegIdx) (kk : Byte) (s : State) : Out :=
  .next { s.setReg x (Config.drawByte s.draws &&& kk) with draws := s.draws + 1 }

end Sys2Proof.Machine
end

