-- ==== Sys2Proof/Machine/ControlFlow.lean ====
section
/-!
DEFINITION. The control-flow instructions (spec/40_control_flow.md R78 to R88). A meaning is the handler: the pc it sees
is the advanced one.
-/

namespace Sys2Proof.Machine

/-- RET (R79). -/
def execRet (s : State) : Out := s.pop

/-- JP addr (R80). -/
def execJp (nnn : Addr) (s : State) : Out := .next (s.setPc (zextAddr nnn))

/-- CALL addr (R81): the pushed value is the advanced pc. -/
def execCall (nnn : Addr) (s : State) : Out := s.push fun t => .next (t.setPc (zextAddr nnn))

/-- SE Vx, kk (R82). -/
def execSeImm (x : RegIdx) (kk : Byte) (s : State) : Out := .next (s.skipIf (s.reg x == kk))

/-- SNE Vx, kk (R83). -/
def execSneImm (x : RegIdx) (kk : Byte) (s : State) : Out := .next (s.skipIf (s.reg x != kk))

/-- SE Vx, Vy (R84). -/
def execSeReg (x y : RegIdx) (s : State) : Out := .next (s.skipIf (s.reg x == s.reg y))

/-- SNE Vx, Vy (R85). -/
def execSneReg (x y : RegIdx) (s : State) : Out := .next (s.skipIf (s.reg x != s.reg y))

/-- JP V0, addr, or Bnnn (R86): an absolute address plus V0 or Vx. -/
def execJpOffset (nnn : Addr) (x : RegIdx) (s : State) : Out :=
  .next (s.setPc (zextAddr nnn + zextByte (s.reg (jumpOffset s.config x))))

/-- SKP Vx (R87). -/
def execSkp (x : RegIdx) (s : State) : Out := withKeyIndex s x fun k => .next (s.skipIf s.KEY[k])

/-- SKNP Vx (R88). -/
def execSknp (x : RegIdx) (s : State) : Out := withKeyIndex s x fun k => .next (s.skipIf (!s.KEY[k]))

end Sys2Proof.Machine
end

