-- ==== Sys2Proof/Machine/Graphics.lean ====
section
/-!
DEFINITION. The display instructions (spec/42_display.md R104 to R108).
-/

namespace Sys2Proof.Machine

/-- CLS (R106). VF is not changed. -/
def execCls (s : State) : Out := .next { s with DISP := Display.clear }

/-- DRW Vx, Vy, n (R107): the conflict check, the range check, then the blit; VF takes the collision in every
execution. -/
def execDrw (x y : RegIdx) (n : Fin 16) (s : State) : Out :=
  conflictCheck s.config [x, y] <| checkRange s.I.toNat n.val <|
    let drawn := blit (s.reg x).toNat (s.reg y).toNat n.val (fun row => s.byteAt (s.I.toNat + row)) s.DISP
    .next ({ s with DISP := drawn.1 }.setReg vf (flagByte drawn.2))

end Sys2Proof.Machine
end

