-- ==== Sys2Proof/Machine/IndexMemory.lean ====
section
/-!
DEFINITION. The index register, timer, key-wait and memory-transfer instructions (spec/43_index_memory_timers.md R109 to
R118).
-/

namespace Sys2Proof.Machine

/-- LD I, addr (R109). -/
def execLdI (nnn : Addr) (s : State) : Out := .next (s.setI (zextAddr nnn))

/-- LD Vx, DT (R110): DT before this step's tick. -/
def execLdVxDt (x : RegIdx) (s : State) : Out := .next (s.setReg x s.DT)

/-- LD DT, Vx (R111). -/
def execLdDtVx (x : RegIdx) (s : State) : Out := .next (s.setDT (anomalyValue s x))

/-- LD ST, Vx (R112): not affected by ANOMALY_A_COMPAT. -/
def execLdStVx (x : RegIdx) (s : State) : Out := .next (s.setST (s.reg x))

/-- LD Vx, K (R113): the lowest pressed key, or the rewind that makes the next step run the same instruction. -/
def execLdVxK (x : RegIdx) (s : State) : Out :=
  match lowestKey s.KEY with
  | some k => .next (s.setReg x (BitVec.ofNat 8 k.val))
  | none => .next s.rewind

/-- ADD I, Vx (R114): modulo 2^16, no flag. -/
def execAddIVx (x : RegIdx) (s : State) : Out := .next (s.setI (s.I + zextByte (anomalyValue s x)))

/-- LD F, Vx (R115). -/
def execLdFVx (x : RegIdx) (s : State) : Out := withFontDigit s x fun d => .next (s.setI (glyphAddr d))

/-- LD B, Vx (R116). -/
def execLdBVx (x : RegIdx) (s : State) : Out :=
  checkRange s.I.toNat 3 (storeBytes s s.I.toNat (bcdDigits (s.reg x)))

/-- LD [I], Vx (R117). -/
def execLdMemVx (x : RegIdx) (s : State) : Out :=
  checkRange s.I.toNat (x.val + 1) <|
    match storeBytes s s.I.toNat (s.regBlock x) with
    | .next t => .next (t.advanceI x)
    | .fault k => .fault k
    | .refused r => .refused r

/-- LD Vx, [I] (R118). -/
def execLdVxMem (x : RegIdx) (s : State) : Out :=
  checkRange s.I.toNat (x.val + 1) (.next ((s.loadRegs x s.I.toNat).advanceI x))

end Sys2Proof.Machine
end

