-- ==== Sys2Proof/Machine/Step.lean ====
section
/-!
DEFINITION. One step of the block (spec/30_encoding.md R59), and placing an instruction where the next step fetches.
-/

namespace Sys2Proof.Machine

/-- One step (R59): fetch, advance, decode, dispatch, timer tick. A fault raised in any phase is taken in the state
before the step (R121); a halted block refuses the step (R122). -/
def step (s : State) : Host.Outcome State Fault Refusal :=
  match s.status with
  | .halted k => .refused (.halted k)
  | .running =>
    match s.fetch with
    | .error k => .next (s.takeFault k)
    | .ok w =>
      match decodeFetched w with
      | .error k => .next (s.takeFault k)
      | .ok i => finishStep s (exec i (s.advance w))

/-- s with an instruction's word stored at pc, its high byte first (R49), where `step` fetches it. Bits at nbits and
above are 0. A pc whose fetch is out of bounds has no place for it: s is then unchanged. -/
def State.withFetchWord (s : State) (nbits w : Nat) : State :=
  let word : Word := BitVec.ofNat 16 (w % 2 ^ nbits)
  if s.pc.toNat + 1 < memSize then
    { s with
      mem :=
        Memory.write s.config.font
          (Memory.write s.config.font s.mem s.pc.toNat (hiByte word)) (s.pc.toNat + 1) (loByte word) }
  else
    s

end Sys2Proof.Machine
end

