-- ==== Sys2Proof/Machine/HostPort.lean ====
section
/-!
DEFINITION. The host's side of the block's ports (spec/60_exceptions.md R130 to R133, spec/70_reset_and_hazards.md R138,
R139): the moves the host makes between steps and what it reads. `step` never calls them.
-/

namespace Sys2Proof.Machine

/-- `key(k, pressed)`: an index outside 0..15 is ignored (R130). -/
def State.writeKey (s : State) (k : Nat) (pressed : Bool) : State :=
  if h : k < 16 then { s with KEY := s.KEY.set k pressed h } else s

/-- The reset port (R138): every piece of state at its reset value. The configuration is fixed for the life of the
instance (R35), and the random source is not part of the block (R103), so both are kept. -/
def State.hostReset (s : State) : State := State.resetWith s.config s.draws

/-- The largest program, 3584 bytes (R6, R44). -/
def maxProgram : Nat := 3584

/-- Where a program is loaded (R6, R44). -/
def programBase : Nat := 0x200

/-- Bytes copied into memory at increasing addresses, with no rule of 20_memory.md applied (R139). -/
def Memory.copyIn (font : Vector Byte 80) : Memory → Nat → List Byte → Memory
  | m, _, [] => m
  | m, a, v :: vs => Memory.copyIn font (Memory.write font m a v) (a + 1) vs

/-- `load(bytes)` (R139): reset, then Halted(ProgramTooLarge) with no byte copied, or the copy to 0x200. -/
def State.loadProgram (s : State) (bytes : List Byte) : State :=
  let fresh := s.hostReset
  if bytes.length > maxProgram then fresh.takeFault .programTooLarge
  else { fresh with mem := Memory.copyIn fresh.config.font fresh.mem programBase bytes }

/-- The display read-out: 32 rows of 64, row 0 and column 0 first (R132). -/
def State.displayOut (s : State) : List (List Bool) := s.DISP.toList.map Vector.toList

/-- The tone output: sound_timer is nonzero (R131). -/
def State.toneOn (s : State) : Bool := s.ST != 0

/-- The numeric fault codes of R119 (the spec's decision D9: names, which no rule compares). -/
def Fault.code : Fault → Nat
  | .outOfBounds => 1
  | .unimplementedOpcode => 2
  | .stackOverflow => 3
  | .stackUnderflow => 4
  | .programTooLarge => 5
  | .undefined => 6

end Sys2Proof.Machine
end

