-- ==== Sys2Proof/Machine/Run.lean ====
section
/-!
DEFINITION. A run with the host in it: the host's moves between steps (spec/00_scope.md R17, spec/60_exceptions.md R133)
and a frame of STEPS_PER_FRAME steps (spec/00_scope.md R6).
-/

namespace Sys2Proof.Machine

/-- What may happen to the block: one step, or a move of the host between steps (R133). -/
inductive HostMove where
  | step
  | key (k : Nat) (pressed : Bool)
  | load (bytes : List Byte)
  | reset
deriving DecidableEq, Repr

/-- A step request: "A step request is refused and changes nothing" in a halted block (R122). -/
def State.requestStep (s : State) : State :=
  match step s with
  | .next t => t
  | .fault _ => s
  | .refused _ => s

/-- The effect of one move. -/
def State.move (s : State) : HostMove → State
  | .step => s.requestStep
  | .key k pressed => s.writeKey k pressed
  | .load bytes => s.loadProgram bytes
  | .reset => s.hostReset

/-- The state after a schedule of moves, in order (R54: step k completes before what follows begins). -/
def State.moves (s : State) (ms : List HostMove) : State := ms.foldl State.move s

/-- One frame: STEPS_PER_FRAME step requests, after which the host reads the display (R146, R147). -/
def State.runFrame (stepsPerFrame : Nat) (s : State) : State := s.moves (List.replicate stepsPerFrame .step)

end Sys2Proof.Machine
end

