-- ==== Sys2Proof/Safety.lean ====
section
/-!
DEFINITION. What counts as a safe state and a safe run, in the terms the statements use: the invariants of the block,
the end of a run (spec/60_exceptions.md R134), and the parts of the state a frame names (spec/10_state.md R38).
-/

namespace Sys2Proof.Machine

/-- One part of the state, the grain at which the frame rule R38 speaks. -/
inductive Part where
  | reg (x : RegIdx)
  | I
  | pc
  | SP
  | stack (j : Fin 16)
  | DT
  | ST
  | key (k : RegIdx)
  | pixel (r : Fin 32) (c : Fin 64)
  | byte (a : Nat)
  | status
  | opcode
  | config
  | draws
deriving DecidableEq, Repr

/-- A part holds the same in two states. -/
def Part.same (s t : State) : Part → Prop
  | .reg x => t.reg x = s.reg x
  | .I => t.I = s.I
  | .pc => t.pc = s.pc
  | .SP => t.SP = s.SP
  | .stack j => t.STACK[j] = s.STACK[j]
  | .DT => t.DT = s.DT
  | .ST => t.ST = s.ST
  | .key k => t.KEY[k] = s.KEY[k]
  | .pixel r c => Display.pixel t.DISP r c = Display.pixel s.DISP r c
  | .byte a => t.byteAt a = s.byteAt a
  | .status => t.status = s.status
  | .opcode => t.opcode = s.opcode
  | .config => t.config = s.config
  | .draws => t.draws = s.draws

/-- Between s and t nothing changes outside `written`: every register, special register, stack cell, key, pixel, byte of
memory, the status, the scratch, the configuration and the draw counter. -/
def ChangesOnly (written : Part → Prop) (s t : State) : Prop := ∀ p, ¬ written p → Part.same s t p

/-- pc stays where a step can put it: at most 0xFFF + 0xFF (R25). -/
def PcBounded (s : State) : Prop := s.pc.toNat ≤ 0x10FE

/-- Every return address pushed and not yet popped is one CALL can push: at most 0x1000 (R25). -/
def StackBounded (s : State) : Prop := ∀ j : Fin 16, j.val < s.SP.val → s.STACK[j].toNat ≤ 0x1000

/-- Memory is in its canonical form, with every listed address below 4096 (log entry 4). -/
def MemCanonical (s : State) : Prop := Memory.wf s.config.font s.mem = true

/-- The invariant of the block. -/
structure State.Inv (s : State) : Prop where
  memCanonical : MemCanonical s
  pcBounded : PcBounded s
  stackBounded : StackBounded s

/-- Halted with some fault: never a good end of a run (R134). -/
def State.Halted (s : State) : Prop := ∃ k, s.status = .halted k

/-- An idle loop: Running, and the word at pc is a jump to its own address (R134). -/
def State.IdleLoop (s : State) : Prop :=
  s.status = .running ∧ s.pc.toNat ≤ 0xFFE ∧ decodeWord s.fetchWord = .ok (.jp (s.pc.setWidth 12))

/-- A state no instruction can tell from another: they differ at most in the stack cells at and above SP, which no
instruction reads (R28, R39), and in the opcode scratch, which no rule reads across steps (R34). -/
structure SameToPrograms (s t : State) : Prop where
  V : t.V = s.V
  I : t.I = s.I
  pc : t.pc = s.pc
  SP : t.SP = s.SP
  stackBelow : ∀ j : Fin 16, j.val < s.SP.val → t.STACK[j] = s.STACK[j]
  DT : t.DT = s.DT
  ST : t.ST = s.ST
  KEY : t.KEY = s.KEY
  DISP : t.DISP = s.DISP
  mem : t.mem = s.mem
  status : t.status = s.status
  config : t.config = s.config
  draws : t.draws = s.draws

/-- What an instruction may write when its handler runs in s, as its rule names it (R19, R26 to R32, R38, R51); pc stands
here only where the handler itself writes it. -/
def writes (s : State) : Instr → Part → Prop
  | .cls, p => ∃ r c, p = .pixel r c
  | .ret, p => p = .SP ∨ p = .pc
  | .jp _, p => p = .pc
  | .call _, p => p = .SP ∨ p = .pc ∨ ∃ j : Fin 16, j.val = s.SP.val ∧ p = .stack j
  | .seImm _ _, p => p = .pc
  | .sneImm _ _, p => p = .pc
  | .seReg _ _, p => p = .pc
  | .ldImm x _, p => p = .reg x
  | .addImm x _, p => p = .reg x
  | .ldReg x _, p => p = .reg x
  | .orReg x _, p => p = .reg x
  | .andReg x _, p => p = .reg x
  | .xorReg x _, p => p = .reg x
  | .addReg x _, p => p = .reg x ∨ p = .reg vf
  | .subReg x _, p => p = .reg x ∨ p = .reg vf
  | .shr x _, p => p = .reg x ∨ p = .reg vf
  | .subnReg x _, p => p = .reg x ∨ p = .reg vf
  | .shl x _, p => p = .reg x ∨ p = .reg vf
  | .sneReg _ _, p => p = .pc
  | .ldI _, p => p = .I
  | .jpOffset _ _, p => p = .pc
  | .rnd x _, p => p = .reg x ∨ p = .draws
  | .drw x y n, p =>
    p = .reg vf ∨ ∃ row < n.val, ∃ col < 8, p = .pixel (wrapRow (s.reg y).toNat row) (wrapCol (s.reg x).toNat col)
  | .skp _, p => p = .pc
  | .sknp _, p => p = .pc
  | .ldVxDt x, p => p = .reg x
  | .ldVxK x, p => p = .reg x ∨ p = .pc
  | .ldDtVx _, p => p = .DT
  | .ldStVx _, p => p = .ST
  | .addIVx _, p => p = .I
  | .ldFVx _, p => p = .I
  | .ldBVx _, p => ∃ k < 3, p = .byte (s.I.toNat + k)
  | .ldMemVx x, p =>
    (p = .I ∧ s.config.loadStoreIncrementsI = true) ∨ ∃ k, k ≤ x.val ∧ p = .byte (s.I.toNat + k)
  | .ldVxMem x, p => (p = .I ∧ s.config.loadStoreIncrementsI = true) ∨ ∃ z, z ≤ x ∧ p = .reg z

/-- The end of a flag ALU instruction as R90 and R22 say it: `r` is the 8-bit result, `f` whether the flag is 1. -/
def FlagOutcome (x : RegIdx) (r : Nat) (f : Prop) (s t : State) : Prop :=
  (x = 15 ∧ s.config.vfConflict = .resultWins → (t.reg 15).toNat = r) ∧
  (¬(x = 15 ∧ s.config.vfConflict = .resultWins) → (f → t.reg 15 = 1) ∧ (¬f → t.reg 15 = 0)) ∧
  (x ≠ 15 → (t.reg x).toNat = r) ∧
  ChangesOnly (fun p => p = .reg x ∨ p = .reg 15) s t

/-- The wrapped sprite mask S[r][c] of R108 for the sprite of n rows at I, drawn from (V[x], V[y]). -/
def SpriteMask (s : State) (x y : RegIdx) (n : Fin 16) (r : Fin 32) (c : Fin 64) : Prop :=
  ∃ row < n.val, ∃ col < 8,
    r.val = ((s.reg y).toNat + row) % 32 ∧ c.val = ((s.reg x).toNat + col) % 64 ∧
      (s.byteAt (s.I.toNat + row)).getLsbD (7 - col) = true

end Sys2Proof.Machine
end

