-- ==== Sys2Proof/Certificates/Slice0/Obligations.lean ====
section
/-!
DEFINITION. The statements for the provers. Each docstring names the rule of spec/ it formalises. "Derived" is said of a
clause that rests on one of the spec's own decisions (D<n>) or on a log entry of this model.
-/

open Sys2Proof Sys2Proof.Machine

/-! ### Encoding (30_encoding.md) -/

/-- Words written out bit by bit from R62 to R72 decode to the instruction they stand for. Derived: the positions and
values are the spec's decision D3. -/
def Obligations.WrittenOutWordsDecode : Prop :=
  decodeWord 0b0000_0000_1110_0000 = .ok .cls ∧
  decodeWord 0b0000_0000_1110_1110 = .ok .ret ∧
  decodeWord 0b0010_0010_0001_0000 = .ok (.call 0x210) ∧
  decodeWord 0b0110_1010_0010_1111 = .ok (.ldImm 0xA 0x2F) ∧
  decodeWord 0b1000_0000_0001_0100 = .ok (.addReg 0 1) ∧
  decodeWord 0b1011_0010_0000_1010 = .ok (.jpOffset 0x20A 2) ∧
  decodeWord 0b1101_0001_0010_0101 = .ok (.drw 1 2 5) ∧
  decodeWord 0b1110_0101_1010_0001 = .ok (.sknp 5) ∧
  decodeWord 0b1111_0010_0110_0101 = .ok (.ldVxMem 2) ∧
  decodeWord 0b1000_0000_0000_1000 = .error (.unimplementedOpcode 0x8008)

/-- Decode and encode agree on every well-formed instruction, as a word and as the two big-endian bytes before any rest.
Derived: R77's words are the spec's decision D3. -/
def Obligations.DecodeOfEncodeIsIdentity : Prop :=
  ∀ i : Instr, i.WellFormed →
    decodeWord (encode i) = .ok i ∧ ∀ rest, decode (encodeBytes i ++ rest) = .ok (i, rest)

/-- A word that decodes to i is i's canonical word but for the bits R72 calls not decoded, and i is well-formed: no bit of
the word is read wrongly or invented. Derived: decision D3. -/
def Obligations.DecodedWordIsCanonicalUpToUndecodedBits : Prop :=
  ∀ (w : Word) (i : Instr), decodeWord w = .ok i →
    i.WellFormed ∧ w &&& decodedBits i = encode i &&& decodedBits i

/-- R72: the bits that select nothing. Any value of them is accepted and gives the same instruction, and with
SHIFT_COPIES_VY = false SHR and SHL do not read their y field. Derived: R72's canonical forms are the spec's decision D3. -/
def Obligations.UndecodedBitsSelectNothing : Prop :=
  (∀ b : BitVec 8, decodeWord (0x0#4 ++ b ++ 0x0#4) = .ok .cls ∧ decodeWord (0x0#4 ++ b ++ 0xE#4) = .ok .ret) ∧
  (∀ (x y : RegIdx) (n : BitVec 4),
    decodeWord (0x5#4 ++ nibbleBits x ++ nibbleBits y ++ n) = .ok (.seReg x y) ∧
    decodeWord (0x9#4 ++ nibbleBits x ++ nibbleBits y ++ n) = .ok (.sneReg x y)) ∧
  (∀ (x : RegIdx) (b : BitVec 4),
    decodeWord (0xE#4 ++ nibbleBits x ++ b ++ 0xE#4) = .ok (.skp x) ∧
    decodeWord (0xE#4 ++ nibbleBits x ++ b ++ 0x1#4) = .ok (.sknp x)) ∧
  (∀ (x y y' : RegIdx) (s : State), s.config.shiftCopiesVy = false →
    exec (.shr x y) s = exec (.shr x y') s ∧ exec (.shl x y) s = exec (.shl x y') s)

/-- R71: exactly the listed words are illegal; fetched by a running block, such a word faults UnimplementedOpcode and the
step commits nothing. Derived for the last clause: a fault is a next state whose only change is the status (decision D8,
log entry 6). -/
def Obligations.IllegalWordsAreExactlyTheListed : Prop :=
  (∀ w : Word, decodeWord w = .error (.unimplementedOpcode w) ∨ ∃ i, decodeWord w = .ok i) ∧
  (∀ w : Word, decodeWord w = .error (.unimplementedOpcode w) ↔
    (w.toNat / 4096 = 0x0 ∧ w.toNat % 16 ∉ [0x0, 0xE]) ∨
    (w.toNat / 4096 = 0x8 ∧ w.toNat % 16 ∈ [0x8, 0x9, 0xA, 0xB, 0xC, 0xD, 0xF]) ∨
    (w.toNat / 4096 = 0xE ∧ w.toNat % 16 ∉ [0xE, 0x1]) ∨
    (w.toNat / 4096 = 0xF ∧
      w.toNat % 256 ∉ [0x07, 0x0A, 0x15, 0x18, 0x1E, 0x29, 0x33, 0x55, 0x65])) ∧
  (∀ (s : State) (w : Word), s.status = .running → s.fetch = .ok w →
    decodeWord w = .error (.unimplementedOpcode w) →
    step s = .next { s with status := .halted .unimplementedOpcode })

/-! ### The step (30_encoding.md R59 to R61, 60_exceptions.md R121 to R128) -/

/-- R60: the fetch succeeds exactly when pc <= 0xFFE, and then reads the two bytes at pc and pc + 1 big-endian; pc may be
odd. -/
def Obligations.FetchIsBoundedAndBigEndian : Prop :=
  ∀ s : State,
    (s.pc.toNat ≤ 0xFFE → ∃ w, s.fetch = .ok w ∧
      w.extractLsb 15 8 = s.byteAt s.pc.toNat ∧ w.extractLsb 7 0 = s.byteAt (s.pc.toNat + 1)) ∧
    (s.pc.toNat + 1 ≥ 4096 → s.fetch = .error .outOfBounds)

/-- A step runs the decoded instruction: when the two bytes at pc make a word that decodes to i, the step is exec of i on
the state with pc advanced by 2 and the word in the opcode scratch, then the timer tick; a fetch out of bounds, or a fault
of the handler, gives the state before the step with the status halted; no handler refuses. Derived: how a fault is
answered is log entry 6 and decision D8. -/
def Obligations.StepRunsDecodedInstruction : Prop :=
  ∀ s : State, s.status = .running →
    (s.pc.toNat + 1 ≥ 4096 → step s = .next { s with status := .halted .outOfBounds }) ∧
    (∀ (w : Word) (i : Instr), s.pc.toNat + 1 < 4096 →
      w = s.byteAt s.pc.toNat ++ s.byteAt (s.pc.toNat + 1) → decodeWord w = .ok i →
      (∀ u, exec i { s with pc := s.pc + 2, opcode := w } = .next u → step s = .next u.tick) ∧
      (∀ k, exec i { s with pc := s.pc + 2, opcode := w } = .fault k → step s = .next { s with status := .halted k }) ∧
      (∀ r, exec i { s with pc := s.pc + 2, opcode := w } ≠ .refused r))

/-- R128: every step whose handler answers ends with the tick: DT and ST each one lower with a floor at 0, counted from
what the handler left, and nothing else touched. -/
def Obligations.TimerTickEndsEveryStep : Prop :=
  ∀ (s u : State) (w : Word) (i : Instr), s.status = .running → s.fetch = .ok w → decodeWord w = .ok i →
    exec i (s.advance w) = .next u →
    ∃ t, step s = .next t ∧ t.DT.toNat = u.DT.toNat - 1 ∧ t.ST.toNat = u.ST.toNat - 1 ∧
      ChangesOnly (fun p => p = .DT ∨ p = .ST) u t

/-- A running block answers every step with a next state: no instruction, operand or memory content stops the model.
Derived from R59, R73 and R121 (log entry 6). -/
def Obligations.RunningStepAlwaysAnswersNext : Prop :=
  ∀ s : State, s.status = .running → ∃ t, step s = .next t

/-- Fault atomicity: a step of a running block that does not end Running left everything as it was but the status.
Derived: R121 is the spec's decision D8. -/
def Obligations.FaultingStepCommitsNothing : Prop :=
  ∀ s t : State, s.status = .running → step s = .next t → t.status ≠ .running →
    ∃ k, t = { s with status := .halted k }

/-- R122: a halted block refuses every step, which changes nothing, and only reset or load makes it Running again. -/
def Obligations.HaltedBlockRefusesSteps : Prop :=
  ∀ (s : State) (k : Fault), s.status = .halted k →
    step s = .refused (.halted k) ∧ s.move .step = s ∧
    (∀ m, (s.move m).status = .running → m = .reset ∨ ∃ bytes, m = .load bytes) ∧
    (s.move .reset).status = .running ∧
    (∀ bytes : List Byte, bytes.length ≤ 3584 → (s.move (.load bytes)).status = .running)

/-! ### Reset, load and the host's ports -/

/-- What reset leaves in every piece of state, from any state. Derived: R138's I = 0 and opcode = 0 are the spec's
decision D13. The draw counter and the configuration are kept, which is the model's choice (log entries 1 and 2). -/
def Obligations.ResetValues : Prop :=
  State.reset = State.hostReset State.reset ∧
  ∀ s t : State, t = s.hostReset →
    (∀ x, t.reg x = 0) ∧ t.I = 0 ∧ t.pc = 0x200 ∧ t.SP = 0 ∧ (∀ j : Fin 16, t.STACK[j] = 0) ∧ t.DT = 0 ∧ t.ST = 0 ∧
    (∀ k : RegIdx, t.KEY[k] = false) ∧ (∀ r c, Display.pixel t.DISP r c = false) ∧
    (∀ (k : Nat) (h : k < 80), t.byteAt (0x50 + k) = s.config.font[k]) ∧
    (∀ a, a < 0x50 ∨ 0x50 + 80 ≤ a → t.byteAt a = 0) ∧
    t.status = .running ∧ t.opcode = 0 ∧ t.config = s.config ∧ t.draws = s.draws

/-- Program load, R139: a buffer of at most 3584 bytes stands at 0x200 in an otherwise fresh state; a longer one leaves
the fresh state Halted(ProgramTooLarge) with no byte copied. Derived: the failing clause is the spec's decision D27. -/
def Obligations.LoadPlacesProgram : Prop :=
  ∀ (s : State) (bytes : List Byte),
    (bytes.length ≤ 3584 →
      (∀ (k : Nat) (h : k < bytes.length), (s.loadProgram bytes).byteAt (0x200 + k) = bytes[k]) ∧
      ChangesOnly (fun p => ∃ k < bytes.length, p = .byte (0x200 + k)) s.hostReset (s.loadProgram bytes)) ∧
    (bytes.length > 3584 → s.loadProgram bytes = { s.hostReset with status := .halted .programTooLarge })

/-- R130: the host's key write sets one flag at once, an index above 15 is ignored, and a step sees one fixed keypad: it
changes no key. -/
def Obligations.KeypadIsWrittenByTheHostAlone : Prop :=
  (∀ (s : State) (k : Nat) (pressed : Bool),
    (∀ h : k < 16, (s.writeKey k pressed).KEY[k] = pressed ∧
      ChangesOnly (fun p => p = .key ⟨k, h⟩) s (s.writeKey k pressed)) ∧
    (¬ k < 16 → s.writeKey k pressed = s)) ∧
  (∀ s t : State, step s = .next t → t.KEY = s.KEY)

/-- The read-out ports: the display row-major with row 0 and column 0 first, the tone exactly when ST is nonzero. Derived:
the layout of R132 is the spec's decision D28. -/
def Obligations.ReadOutsShowTheState : Prop :=
  ∀ s : State,
    (∀ (r : Fin 32) (c : Fin 64), (s.displayOut[r.val]?.bind fun row => row[c.val]?) = some (Display.pixel s.DISP r c)) ∧
    s.displayOut.length = 32 ∧ (∀ row ∈ s.displayOut, row.length = 64) ∧
    (s.toneOn = true ↔ s.ST ≠ 0)

/-- The configuration is fixed for the life of the machine: no schedule of steps and host moves changes it. Derived: that
State carries it is log entry 1 (R35). -/
def Obligations.ConfigurationNeverChanges : Prop :=
  ∀ (s : State) (ms : List HostMove), (s.moves ms).config = s.config

/-! ### Invariants -/

/-- The reset state, and what the host's reset leaves, meet the invariant. Derived: log entry 4, R25. -/
def Obligations.ResetMeetsTheInvariant : Prop :=
  State.reset.Inv ∧ ∀ s : State, s.hostReset.Inv

/-- Every step keeps the invariant, from every state that meets it: memory stays in canonical form inside 4096 addresses,
pc stays at most 0x10FE, and every return address on the stack stays at most 0x1000. Derived: R25 and log entry 4. -/
def Obligations.EveryStepKeepsTheInvariant : Prop :=
  ∀ s t : State, s.Inv → step s = .next t → t.Inv

/-- Every schedule of steps and host moves keeps the invariant. Derived: R25, R139 and log entries 4 and 8. -/
def Obligations.EveryScheduleKeepsTheInvariant : Prop :=
  ∀ (s : State) (ms : List HostMove), s.Inv → (s.moves ms).Inv

/-! ### Memory -/

/-- MemWrite: inside memory, and where LOW_MEMORY_WRITES allows it, it sets that byte and changes nothing else; otherwise
it faults OutOfBounds. Its premise on the memory list is the invariant EveryStepKeepsTheInvariant keeps. Derived: R47 with
R45, the spec's decision D16. -/
def Obligations.MemWriteSetsOneByte : Prop :=
  ∀ (s : State) (a : Nat) (v : Byte), MemCanonical s →
    (a ≤ 0xFFF ∧ (s.config.lowMemoryWrites = .allow ∨ 0x200 ≤ a) →
      ∃ t, memWrite s a v = .next t ∧ t.byteAt a = v ∧ ChangesOnly (fun p => p = .byte a) s t) ∧
    (¬ (a ≤ 0xFFF ∧ (s.config.lowMemoryWrites = .allow ∨ 0x200 ≤ a)) → memWrite s a v = .fault .outOfBounds)

/-! ### Control flow (40_control_flow.md) -/

/-- R79, RET: with SP = 0 it faults StackUnderflow; otherwise SP goes down by one and pc is the cell there, which is not
cleared. -/
def Obligations.RetPopsTheReturnAddress : Prop :=
  (∀ b : BitVec 8, decodeWord (0x0#4 ++ b ++ 0xE#4) = .ok .ret) ∧
  ∀ s : State,
    (s.SP = 0 → exec .ret s = .fault .stackUnderflow) ∧
    (∀ j : Fin 16, s.SP.val = j.val + 1 →
      ∃ t, exec .ret s = .next t ∧ t.SP.val = j.val ∧ t.pc = s.STACK[j] ∧
        ChangesOnly (fun p => p = .SP ∨ p = .pc) s t)

/-- R80, JP addr: pc is the zero-extended address and nothing else changes. -/
def Obligations.JpSetsPc : Prop :=
  ∀ nnn : Addr, decodeWord (0x1#4 ++ nnn) = .ok (.jp nnn) ∧
    ∀ s : State, ∃ t, exec (.jp nnn) s = .next t ∧ t.pc.toNat = nnn.toNat ∧ ChangesOnly (fun p => p = .pc) s t

/-- R81, CALL addr: with SP = 16 it faults StackOverflow; otherwise the advanced pc is pushed and pc is the address. -/
def Obligations.CallPushesTheAdvancedPc : Prop :=
  ∀ nnn : Addr, decodeWord (0x2#4 ++ nnn) = .ok (.call nnn) ∧
    ∀ s : State,
      (s.SP = 16 → exec (.call nnn) s = .fault .stackOverflow) ∧
      (∀ j : Fin 16, s.SP.val = j.val →
        ∃ t, exec (.call nnn) s = .next t ∧ t.STACK[j] = s.pc ∧ t.SP.val = j.val + 1 ∧ t.pc.toNat = nnn.toNat ∧
          ChangesOnly (fun p => p = .stack j ∨ p = .SP ∨ p = .pc) s t)

/-- R82 and R83, SE and SNE against an immediate: pc advances by a further 2 exactly when the register equals (differs
from) the byte. VF may be the tested register. -/
def Obligations.SkipsOnImmediate : Prop :=
  ∀ (x : RegIdx) (kk : Byte),
    decodeWord (0x3#4 ++ nibbleBits x ++ kk) = .ok (.seImm x kk) ∧
    decodeWord (0x4#4 ++ nibbleBits x ++ kk) = .ok (.sneImm x kk) ∧
    ∀ s : State,
      (∃ t, exec (.seImm x kk) s = .next t ∧ (s.reg x = kk → t.pc = s.pc + 2) ∧ (s.reg x ≠ kk → t.pc = s.pc) ∧
        ChangesOnly (fun p => p = .pc) s t) ∧
      (∃ t, exec (.sneImm x kk) s = .next t ∧ (s.reg x ≠ kk → t.pc = s.pc + 2) ∧ (s.reg x = kk → t.pc = s.pc) ∧
        ChangesOnly (fun p => p = .pc) s t)

/-- R84 and R85, SE and SNE between two registers, for every value of the undecoded low nibble; x = y always skips, never
skips. -/
def Obligations.SkipsOnRegisters : Prop :=
  ∀ x y : RegIdx,
    (∀ n : BitVec 4, decodeWord (0x5#4 ++ nibbleBits x ++ nibbleBits y ++ n) = .ok (.seReg x y) ∧
      decodeWord (0x9#4 ++ nibbleBits x ++ nibbleBits y ++ n) = .ok (.sneReg x y)) ∧
    ∀ s : State,
      (∃ t, exec (.seReg x y) s = .next t ∧ (s.reg x = s.reg y → t.pc = s.pc + 2) ∧
        (s.reg x ≠ s.reg y → t.pc = s.pc) ∧ ChangesOnly (fun p => p = .pc) s t) ∧
      (∃ t, exec (.sneReg x y) s = .next t ∧ (s.reg x ≠ s.reg y → t.pc = s.pc + 2) ∧
        (s.reg x = s.reg y → t.pc = s.pc) ∧ ChangesOnly (fun p => p = .pc) s t)

/-- Bnnn: pc is nnn plus V0, or plus V[x] with x the top nibble of nnn, as JUMP_OFFSET_REG says; the sum does not wrap.
Derived: R86's default is the spec's decision D4, and both values are stated. -/
def Obligations.JpOffsetAddsARegister : Prop :=
  ∀ nnn : Addr, ∃ x : RegIdx, x.val = nnn.toNat / 256 ∧ decodeWord (0xB#4 ++ nnn) = .ok (.jpOffset nnn x) ∧
    ∀ s : State, ∃ t, exec (.jpOffset nnn x) s = .next t ∧
      (s.config.jumpOffsetReg = .v0 → t.pc.toNat = nnn.toNat + (s.reg 0).toNat) ∧
      (s.config.jumpOffsetReg = .vx → t.pc.toNat = nnn.toNat + (s.reg x).toNat) ∧
      ChangesOnly (fun p => p = .pc) s t

/-- SKP and SKNP: with V[x] at most 15, or under low_nibble, the skip follows the key named by the low nibble of V[x];
with V[x] above 15 under fault, both fault Undefined. Derived: R87 and R88 rest on the spec's decision D11. -/
def Obligations.SkipsOnKey : Prop :=
  ∀ x : RegIdx,
    (∀ b : BitVec 4, decodeWord (0xE#4 ++ nibbleBits x ++ b ++ 0xE#4) = .ok (.skp x) ∧
      decodeWord (0xE#4 ++ nibbleBits x ++ b ++ 0x1#4) = .ok (.sknp x)) ∧
    ∀ s : State,
      ((s.reg x).toNat > 15 ∧ s.config.keyIndexPolicy = .fault →
        exec (.skp x) s = .fault .undefined ∧ exec (.sknp x) s = .fault .undefined) ∧
      (∀ k : RegIdx, (s.reg x).toNat ≤ 15 ∨ s.config.keyIndexPolicy = .lowNibble → k.val = (s.reg x).toNat % 16 →
        (∃ t, exec (.skp x) s = .next t ∧ (s.KEY[k] = true → t.pc = s.pc + 2) ∧ (s.KEY[k] = false → t.pc = s.pc) ∧
          ChangesOnly (fun p => p = .pc) s t) ∧
        (∃ t, exec (.sknp x) s = .next t ∧ (s.KEY[k] = false → t.pc = s.pc + 2) ∧ (s.KEY[k] = true → t.pc = s.pc) ∧
          ChangesOnly (fun p => p = .pc) s t))

/-! ### ALU (41_alu.md) -/

/-- R91 and R92, LD and ADD with an immediate: the new value of V[x], VF included as an ordinary destination; no flag. -/
def Obligations.ImmediateLoadAndAdd : Prop :=
  ∀ (x : RegIdx) (kk : Byte),
    decodeWord (0x6#4 ++ nibbleBits x ++ kk) = .ok (.ldImm x kk) ∧
    decodeWord (0x7#4 ++ nibbleBits x ++ kk) = .ok (.addImm x kk) ∧
    ∀ s : State,
      (∃ t, exec (.ldImm x kk) s = .next t ∧ t.reg x = kk ∧ ChangesOnly (fun p => p = .reg x) s t) ∧
      (∃ t, exec (.addImm x kk) s = .next t ∧ (t.reg x).toNat = ((s.reg x).toNat + kk.toNat) % 256 ∧
        ChangesOnly (fun p => p = .reg x) s t)

/-- R93 to R96, copy, OR, AND and XOR: the new value of V[x] bit by bit; VF is not a flag here. -/
def Obligations.CopyAndBitwise : Prop :=
  ∀ x y : RegIdx,
    decodeWord (0x8#4 ++ nibbleBits x ++ nibbleBits y ++ 0x0#4) = .ok (.ldReg x y) ∧
    decodeWord (0x8#4 ++ nibbleBits x ++ nibbleBits y ++ 0x1#4) = .ok (.orReg x y) ∧
    decodeWord (0x8#4 ++ nibbleBits x ++ nibbleBits y ++ 0x2#4) = .ok (.andReg x y) ∧
    decodeWord (0x8#4 ++ nibbleBits x ++ nibbleBits y ++ 0x3#4) = .ok (.xorReg x y) ∧
    ∀ s : State,
      (∃ t, exec (.ldReg x y) s = .next t ∧ t.reg x = s.reg y ∧ ChangesOnly (fun p => p = .reg x) s t) ∧
      (∃ t, exec (.orReg x y) s = .next t ∧
        (∀ b < 8, (t.reg x).getLsbD b = ((s.reg x).getLsbD b || (s.reg y).getLsbD b)) ∧
        ChangesOnly (fun p => p = .reg x) s t) ∧
      (∃ t, exec (.andReg x y) s = .next t ∧
        (∀ b < 8, (t.reg x).getLsbD b = ((s.reg x).getLsbD b && (s.reg y).getLsbD b)) ∧
        ChangesOnly (fun p => p = .reg x) s t) ∧
      (∃ t, exec (.xorReg x y) s = .next t ∧
        (∀ b < 8, (t.reg x).getLsbD b = ((s.reg x).getLsbD b != (s.reg y).getLsbD b)) ∧
        ChangesOnly (fun p => p = .reg x) s t)

/-- ADD Vx,Vy: the sum modulo 256 and the carry in VF. With x or y = 15 it faults Undefined under fault, and ends as R22
says under the other two policies. Derived: R97 rests on R22 and R90, the spec's decision D6. -/
def Obligations.AddSetsCarry : Prop :=
  ∀ x y : RegIdx, decodeWord (0x8#4 ++ nibbleBits x ++ nibbleBits y ++ 0x4#4) = .ok (.addReg x y) ∧
    ∀ s : State,
      ((x = 15 ∨ y = 15) ∧ s.config.vfConflict = .fault → exec (.addReg x y) s = .fault .undefined) ∧
      (¬ ((x = 15 ∨ y = 15) ∧ s.config.vfConflict = .fault) →
        ∃ t, exec (.addReg x y) s = .next t ∧
          FlagOutcome x (((s.reg x).toNat + (s.reg y).toNat) % 256) ((s.reg x).toNat + (s.reg y).toNat > 255) s t)

/-- SUB and SUBN: the difference modulo 256, and VF 1 exactly when the minuend is strictly greater. Derived: R98 and R100
rest on R22 and R90, the spec's decision D6. -/
def Obligations.SubAndSubnSetNotBorrow : Prop :=
  ∀ x y : RegIdx,
    decodeWord (0x8#4 ++ nibbleBits x ++ nibbleBits y ++ 0x5#4) = .ok (.subReg x y) ∧
    decodeWord (0x8#4 ++ nibbleBits x ++ nibbleBits y ++ 0x7#4) = .ok (.subnReg x y) ∧
    ∀ s : State,
      ((x = 15 ∨ y = 15) ∧ s.config.vfConflict = .fault →
        exec (.subReg x y) s = .fault .undefined ∧ exec (.subnReg x y) s = .fault .undefined) ∧
      (¬ ((x = 15 ∨ y = 15) ∧ s.config.vfConflict = .fault) →
        (∃ t, exec (.subReg x y) s = .next t ∧
          FlagOutcome x (((s.reg x).toNat + 256 - (s.reg y).toNat) % 256) ((s.reg x).toNat > (s.reg y).toNat) s t) ∧
        (∃ t, exec (.subnReg x y) s = .next t ∧
          FlagOutcome x (((s.reg y).toNat + 256 - (s.reg x).toNat) % 256) ((s.reg y).toNat > (s.reg x).toNat) s t))

/-- SHR and SHL: the source (Vx, or Vy with SHIFT_COPIES_VY) shifted by one, the bit shifted out in VF; y conflicts only
when it is an operand. Derived: R99 and R101 rest on R22, decisions D4 and D6. -/
def Obligations.ShiftsSetTheBitShiftedOut : Prop :=
  ∀ x y : RegIdx,
    decodeWord (0x8#4 ++ nibbleBits x ++ nibbleBits y ++ 0x6#4) = .ok (.shr x y) ∧
    decodeWord (0x8#4 ++ nibbleBits x ++ nibbleBits y ++ 0xE#4) = .ok (.shl x y) ∧
    ∀ (s : State) (src : Byte) (conflict : Prop),
      (s.config.shiftCopiesVy = false → src = s.reg x ∧ (conflict ↔ x = 15)) →
      (s.config.shiftCopiesVy = true → src = s.reg y ∧ (conflict ↔ x = 15 ∨ y = 15)) →
      (conflict ∧ s.config.vfConflict = .fault →
        exec (.shr x y) s = .fault .undefined ∧ exec (.shl x y) s = .fault .undefined) ∧
      (¬ (conflict ∧ s.config.vfConflict = .fault) →
        (∃ t, exec (.shr x y) s = .next t ∧ FlagOutcome x (src.toNat / 2) (src.toNat % 2 = 1) s t) ∧
        (∃ t, exec (.shl x y) s = .next t ∧ FlagOutcome x (2 * src.toNat % 256) (128 ≤ src.toNat) s t))

/-- RND: the byte drawn, masked by kk; the draw is the free byte the counter selects, and one draw is consumed. It holds
whatever that byte is. Derived: R102 and R103 with log entry 2, the model's form of the free byte. -/
def Obligations.RndMasksTheDraw : Prop :=
  ∀ (x : RegIdx) (kk : Byte), decodeWord (0xC#4 ++ nibbleBits x ++ kk) = .ok (.rnd x kk) ∧
    ∀ s : State, ∃ t, exec (.rnd x kk) s = .next t ∧
      (∀ b < 8, (t.reg x).getLsbD b = ((Config.drawByte s.draws).getLsbD b && kk.getLsbD b)) ∧
      t.draws = s.draws + 1 ∧ ChangesOnly (fun p => p = .reg x ∨ p = .draws) s t

/-! ### Display (42_display.md) -/

/-- R106, CLS: every pixel off, nothing else changed, and a second CLS leaves the display as one did. -/
def Obligations.ClsTurnsEveryPixelOff : Prop :=
  (∀ b : BitVec 8, decodeWord (0x0#4 ++ b ++ 0x0#4) = .ok .cls) ∧
  ∀ s : State, ∃ t, exec .cls s = .next t ∧ (∀ r c, Display.pixel t.DISP r c = false) ∧
    ChangesOnly (fun p => ∃ r c, p = .pixel r c) s t ∧ ∃ u, exec .cls t = .next u ∧ u.DISP = t.DISP

/-- DRW as R108 says it: every pixel becomes itself XOR the wrapped sprite mask, VF is 1 exactly when the mask meets a lit
pixel, and nothing else changes, n = 0 included. It faults Undefined on a VF conflict under fault, before the range check
(R123), and OutOfBounds when n > 0 and I + n > 4096. Derived: R107 and R108 with decisions D6, D7, D10, D19 and D29. -/
def Obligations.DrwXorsTheSpriteMask : Prop :=
  ∀ (x y : RegIdx) (n : Fin 16),
    decodeWord (0xD#4 ++ nibbleBits x ++ nibbleBits y ++ nibbleBits n) = .ok (.drw x y n) ∧
    ∀ s : State,
      ((x = 15 ∨ y = 15) ∧ s.config.vfConflict = .fault → exec (.drw x y n) s = .fault .undefined) ∧
      (¬ ((x = 15 ∨ y = 15) ∧ s.config.vfConflict = .fault) →
        (0 < n.val ∧ 4096 < s.I.toNat + n.val → exec (.drw x y n) s = .fault .outOfBounds) ∧
        (n.val = 0 ∨ s.I.toNat + n.val ≤ 4096 →
          ∃ t, exec (.drw x y n) s = .next t ∧
            (∀ r c, SpriteMask s x y n r c → Display.pixel t.DISP r c = !Display.pixel s.DISP r c) ∧
            (∀ r c, ¬ SpriteMask s x y n r c → Display.pixel t.DISP r c = Display.pixel s.DISP r c) ∧
            ((∃ r c, SpriteMask s x y n r c ∧ Display.pixel s.DISP r c = true) → t.reg 15 = 1) ∧
            ((¬ ∃ r c, SpriteMask s x y n r c ∧ Display.pixel s.DISP r c = true) → t.reg 15 = 0) ∧
            ChangesOnly (fun p => p = .reg 15 ∨ ∃ r c, p = .pixel r c) s t))

/-- Drawing the same sprite twice at the same place restores every pixel (test vector E6), for coordinate registers other
than VF. Derived from R107 and R108. -/
def Obligations.DrawingTwiceRestoresTheDisplay : Prop :=
  ∀ (x y : RegIdx) (n : Fin 16) (s t : State), x ≠ 15 → y ≠ 15 → exec (.drw x y n) s = .next t →
    ∃ u, exec (.drw x y n) t = .next u ∧ u.DISP = s.DISP

/-! ### Index register, timers, key wait, memory transfer (43_index_memory_timers.md) -/

/-- R109, LD I,addr: I is the zero-extended address, never scaled, and nothing else changes. -/
def Obligations.LdISetsI : Prop :=
  ∀ nnn : Addr, decodeWord (0xA#4 ++ nnn) = .ok (.ldI nnn) ∧
    ∀ s : State, ∃ t, exec (.ldI nnn) s = .next t ∧ t.I.toNat = nnn.toNat ∧ ChangesOnly (fun p => p = .I) s t

/-- R110 and R112: Vx takes DT as the handler finds it, before the step's tick; ST takes V[x], whatever
ANOMALY_A_COMPAT, and the whole step leaves it one lower, with a floor at 0. -/
def Obligations.ReadDtAndSetSt : Prop :=
  ∀ x : RegIdx,
    decodeWord (0xF#4 ++ nibbleBits x ++ 0x07#8) = .ok (.ldVxDt x) ∧
    decodeWord (0xF#4 ++ nibbleBits x ++ 0x18#8) = .ok (.ldStVx x) ∧
    ∀ s : State,
      (∃ t, exec (.ldVxDt x) s = .next t ∧ t.reg x = s.DT ∧ ChangesOnly (fun p => p = .reg x) s t) ∧
      (∃ t, exec (.ldStVx x) s = .next t ∧ t.ST = s.reg x ∧ ChangesOnly (fun p => p = .ST) s t) ∧
      (∀ w : Word, s.status = .running → s.fetch = .ok w →
        (decodeWord w = .ok (.ldVxDt x) → ∃ t, step s = .next t ∧ t.reg x = s.DT ∧ t.DT.toNat = s.DT.toNat - 1) ∧
        (decodeWord w = .ok (.ldStVx x) → ∃ t, step s = .next t ∧ t.ST.toNat = (s.reg x).toNat - 1))

/-- LD DT,Vx and ADD I,Vx use V[x], or the index x itself under ANOMALY_A_COMPAT; I wraps modulo 2^16 and no flag is
written. Derived: R111 and R114 rest on the spec's decisions D5 and D14. -/
def Obligations.SetDtAndAddToI : Prop :=
  ∀ x : RegIdx,
    decodeWord (0xF#4 ++ nibbleBits x ++ 0x15#8) = .ok (.ldDtVx x) ∧
    decodeWord (0xF#4 ++ nibbleBits x ++ 0x1E#8) = .ok (.addIVx x) ∧
    ∀ (s : State) (v : Nat),
      (s.config.anomalyACompat = false → v = (s.reg x).toNat) → (s.config.anomalyACompat = true → v = x.val) →
      (∃ t, exec (.ldDtVx x) s = .next t ∧ t.DT.toNat = v ∧ ChangesOnly (fun p => p = .DT) s t) ∧
      (∃ t, exec (.addIVx x) s = .next t ∧ t.I.toNat = (s.I.toNat + v) % 65536 ∧ ChangesOnly (fun p => p = .I) s t)

/-- R113, LD Vx,K: the lowest pressed key goes to Vx; with no key pressed the handler takes pc back by 2, and the whole
step leaves pc on the instruction and changes nothing but the ticking timers and the opcode scratch. Derived: the scratch is
log entry 3. -/
def Obligations.KeyWaitTakesLowestKeyOrRepeats : Prop :=
  ∀ x : RegIdx, decodeWord (0xF#4 ++ nibbleBits x ++ 0x0A#8) = .ok (.ldVxK x) ∧
    ∀ s : State,
      (∀ k : RegIdx, s.KEY[k] = true → (∀ j : RegIdx, j < k → s.KEY[j] = false) →
        ∃ t, exec (.ldVxK x) s = .next t ∧ (t.reg x).toNat = k.val ∧ ChangesOnly (fun p => p = .reg x) s t) ∧
      ((∀ k : RegIdx, s.KEY[k] = false) →
        (∃ t, exec (.ldVxK x) s = .next t ∧ t.pc = s.pc - 2 ∧ ChangesOnly (fun p => p = .pc) s t) ∧
        (∀ w : Word, s.status = .running → s.fetch = .ok w → decodeWord w = .ok (.ldVxK x) →
          ∃ t, step s = .next t ∧ t.pc = s.pc ∧ t.DT.toNat = s.DT.toNat - 1 ∧ t.ST.toNat = s.ST.toNat - 1 ∧
            ChangesOnly (fun p => p = .DT ∨ p = .ST ∨ p = .opcode) s t))

/-- LD F,Vx: I is the address of glyph V[x]; with V[x] above 15 it faults Undefined under fault and is used as it is under
unmasked. Derived: R115 rests on the spec's decision D12. -/
def Obligations.LdFPointsAtTheGlyph : Prop :=
  ∀ x : RegIdx, decodeWord (0xF#4 ++ nibbleBits x ++ 0x29#8) = .ok (.ldFVx x) ∧
    ∀ s : State,
      ((s.reg x).toNat > 15 ∧ s.config.fontDigitPolicy = .fault → exec (.ldFVx x) s = .fault .undefined) ∧
      ((s.reg x).toNat ≤ 15 ∨ s.config.fontDigitPolicy = .unmasked →
        ∃ t, exec (.ldFVx x) s = .next t ∧ t.I.toNat = 0x50 + 5 * (s.reg x).toNat ∧
          ChangesOnly (fun p => p = .I) s t)

/-- R116, LD B,Vx: the three decimal digits of V[x] at I, I+1 and I+2, hundreds first, and no other byte changed; it
faults OutOfBounds when I + 3 > 4096, or on an address below 0x200 under LOW_MEMORY_WRITES = fault. Its premise on the
memory list is the invariant EveryStepKeepsTheInvariant keeps. Derived: R116 with R45 and R48, the spec's decisions D16 and
D7. -/
def Obligations.LdBStoresTheDecimalDigits : Prop :=
  ∀ x : RegIdx, decodeWord (0xF#4 ++ nibbleBits x ++ 0x33#8) = .ok (.ldBVx x) ∧
    ∀ s : State, MemCanonical s →
      (s.I.toNat + 3 > 4096 ∨ (s.config.lowMemoryWrites = .fault ∧ s.I.toNat < 0x200) →
        exec (.ldBVx x) s = .fault .outOfBounds) ∧
      (s.I.toNat + 3 ≤ 4096 ∧ (s.config.lowMemoryWrites = .allow ∨ 0x200 ≤ s.I.toNat) →
        ∃ t, exec (.ldBVx x) s = .next t ∧
          (t.byteAt s.I.toNat).toNat = (s.reg x).toNat / 100 ∧
          (t.byteAt (s.I.toNat + 1)).toNat = (s.reg x).toNat / 10 % 10 ∧
          (t.byteAt (s.I.toNat + 2)).toNat = (s.reg x).toNat % 10 ∧
          ChangesOnly (fun p => ∃ k < 3, p = .byte (s.I.toNat + k)) s t)

/-- LD [I],Vx: V0..Vx at I, I+1, ..., I+x and no other byte changed; I advances by x + 1 modulo 2^16 exactly under
LOADSTORE_INCREMENTS_I; it faults OutOfBounds out of range or, under LOW_MEMORY_WRITES = fault, below 0x200. Its premise on
the memory list is the invariant EveryStepKeepsTheInvariant keeps. Derived: R117 rests on the spec's decision D4. -/
def Obligations.StoreBlockWritesV0ToVx : Prop :=
  ∀ x : RegIdx, decodeWord (0xF#4 ++ nibbleBits x ++ 0x55#8) = .ok (.ldMemVx x) ∧
    ∀ s : State, MemCanonical s →
      (s.I.toNat + x.val + 1 > 4096 ∨ (s.config.lowMemoryWrites = .fault ∧ s.I.toNat < 0x200) →
        exec (.ldMemVx x) s = .fault .outOfBounds) ∧
      (s.I.toNat + x.val + 1 ≤ 4096 ∧ (s.config.lowMemoryWrites = .allow ∨ 0x200 ≤ s.I.toNat) →
        ∃ t, exec (.ldMemVx x) s = .next t ∧
          (∀ z : RegIdx, z ≤ x → t.byteAt (s.I.toNat + z.val) = s.reg z) ∧
          (s.config.loadStoreIncrementsI = false → t.I = s.I) ∧
          (s.config.loadStoreIncrementsI = true → t.I.toNat = (s.I.toNat + x.val + 1) % 65536) ∧
          ChangesOnly (fun p => p = .I ∨ ∃ z : RegIdx, z ≤ x ∧ p = .byte (s.I.toNat + z.val)) s t)

/-- R118, LD Vx,[I]: V0..Vx from I, I+1, ..., I+x, VF an ordinary destination, registers above x unchanged; I advances by
x + 1 modulo 2^16 exactly under LOADSTORE_INCREMENTS_I; it faults OutOfBounds when I + x + 1 > 4096. A store and a load with
I restored give the registers back, in a canonical memory. Derived: R118 rests on the spec's decisions D4 and D7. -/
def Obligations.LoadBlockReadsV0ToVx : Prop :=
  ∀ x : RegIdx, decodeWord (0xF#4 ++ nibbleBits x ++ 0x65#8) = .ok (.ldVxMem x) ∧
    (∀ s : State,
      (s.I.toNat + x.val + 1 > 4096 → exec (.ldVxMem x) s = .fault .outOfBounds) ∧
      (s.I.toNat + x.val + 1 ≤ 4096 →
        ∃ t, exec (.ldVxMem x) s = .next t ∧
          (∀ z : RegIdx, z ≤ x → t.reg z = s.byteAt (s.I.toNat + z.val)) ∧
          (s.config.loadStoreIncrementsI = false → t.I = s.I) ∧
          (s.config.loadStoreIncrementsI = true → t.I.toNat = (s.I.toNat + x.val + 1) % 65536) ∧
          ChangesOnly (fun p => p = .I ∨ ∃ z : RegIdx, z ≤ x ∧ p = .reg z) s t)) ∧
    (∀ s t : State, MemCanonical s → exec (.ldMemVx x) s = .next t →
      ∃ u, exec (.ldVxMem x) { t with I := s.I } = .next u ∧ u.V = s.V)

/-! ### Whole-machine rules -/

/-- R38, the frame rule, over all instructions and all states: a handler writes only what its rule names, and a step that
stays Running writes only that, pc, the two timers and the opcode scratch. So only CLS and DRW change a pixel (R104), only
CALL and RET change SP (R27), only RND draws (R103), and no instruction writes a key (R31), the status or the
configuration. Derived: the scratch is log entry 3. -/
def Obligations.HandlerWritesOnlyWhatItsRuleNames : Prop :=
  (∀ (i : Instr) (s t : State), exec i s = .next t → ChangesOnly (writes s i) s t) ∧
  (∀ (s t : State) (w : Word) (i : Instr), s.fetch = .ok w → decodeWord w = .ok i → step s = .next t →
    t.status = .running →
    ChangesOnly (fun p => writes s i p ∨ p = .pc ∨ p = .DT ∨ p = .ST ∨ p = .opcode) s t)

/-- No program can see a stale stack cell or the opcode scratch: two states that differ only there take the same step, to
states that again differ only there. Derived: R28 (decision D17), R34 and R39. -/
def Obligations.StaleCellsAndScratchAreUnobservable : Prop :=
  ∀ s s' : State, SameToPrograms s s' →
    (∀ t, step s = .next t → ∃ t', step s' = .next t' ∧ SameToPrograms t t') ∧
    (∀ r, step s = .refused r → step s' = .refused r)

/-- R30, "No instruction reads it": the sound timer affects no instruction. Whatever ST holds, a handler answers the same,
but for ST itself. Derived from R30 with R112. -/
def Obligations.NoInstructionReadsTheSoundTimer : Prop :=
  ∀ (i : Instr) (s : State) (v : Byte),
    (∀ t, exec i s = .next t → ∃ t', exec i { s with ST := v } = .next t' ∧ { t' with ST := t.ST } = t) ∧
    (∀ k, exec i s = .fault k → exec i { s with ST := v } = .fault k)

/-- From an idle loop every step answers an idle loop and changes only DT and ST, which count down to 0 (and the model's
opcode scratch). Derived: R134 is the spec's decision D24. -/
def Obligations.IdleLoopOnlyTicks : Prop :=
  ∀ s : State, s.IdleLoop →
    ∃ t, step s = .next t ∧ t.IdleLoop ∧ t.DT.toNat = s.DT.toNat - 1 ∧ t.ST.toNat = s.ST.toNat - 1 ∧
      ChangesOnly (fun p => p = .DT ∨ p = .ST ∨ p = .opcode) s t
end

