-- ==== Sys2Proof/Laws/Decode.lean ====
section
/-!
SUPPORT. The fields of a word as numbers, the fields of each of R62's three layouts, and the bytes of a word.
-/

namespace Sys2Proof

/-! ### Concatenation and the fields as numbers -/

/-- Concatenation as arithmetic. -/
theorem append_toNat {m n : Nat} (x : BitVec m) (y : BitVec n) : (x ++ y).toNat = x.toNat * 2 ^ n + y.toNat := by
  rw [BitVec.toNat_append, ← Nat.shiftLeft_add_eq_or_of_lt y.isLt, Nat.shiftLeft_eq]

theorem fieldF_val (w : Word) : (fieldF w).val = w.toNat / 4096 := by
  have := w.isLt
  simp [fieldF, BitVec.extractLsb, Nat.shiftRight_eq_div_pow]; omega

theorem fieldX_val (w : Word) : (fieldX w).val = w.toNat / 256 % 16 := by
  simp [fieldX, BitVec.extractLsb, Nat.shiftRight_eq_div_pow]

theorem fieldY_val (w : Word) : (fieldY w).val = w.toNat / 16 % 16 := by
  simp [fieldY, BitVec.extractLsb, Nat.shiftRight_eq_div_pow]

theorem fieldN_val (w : Word) : (fieldN w).val = w.toNat % 16 := by
  simp [fieldN, BitVec.extractLsb]

theorem fieldKk_toNat (w : Word) : (fieldKk w).toNat = w.toNat % 256 := by
  simp [fieldKk, BitVec.extractLsb]

theorem fieldNnn_toNat (w : Word) : (fieldNnn w).toNat = w.toNat % 4096 := by
  simp [fieldNnn, BitVec.extractLsb]

theorem topNibble_val (nnn : Addr) : (topNibble nnn).val = nnn.toNat / 256 := by
  have := nnn.isLt
  simp [topNibble, BitVec.extractLsb, Nat.shiftRight_eq_div_pow]; omega

theorem nibbleBits_toNat (f : Fin 16) : (nibbleBits f).toNat = f.val := rfl

/-- The field x is the top nibble of the field nnn: the overlap of R63. -/
theorem fieldX_eq_topNibble (w : Word) : fieldX w = topNibble (fieldNnn w) :=
  Fin.ext (by rw [fieldX_val, topNibble_val, fieldNnn_toNat]; omega)

/-! ### The three layouts of R62 -/

theorem packXyn_toNat (F x y n : Fin 16) :
    (packXyn F x y n).toNat = F.val * 4096 + x.val * 256 + y.val * 16 + n.val := by
  simp only [packXyn, append_toNat, nibbleBits_toNat]; omega

theorem packXkk_toNat (F x : Fin 16) (kk : Byte) :
    (packXkk F x kk).toNat = F.val * 4096 + x.val * 256 + kk.toNat := by
  simp only [packXkk, append_toNat, nibbleBits_toNat]; omega

theorem packNnn_toNat (F : Fin 16) (nnn : Addr) : (packNnn F nnn).toNat = F.val * 4096 + nnn.toNat := by
  simp only [packNnn, append_toNat, nibbleBits_toNat]; omega

theorem fieldF_packXyn (F x y n : Fin 16) : fieldF (packXyn F x y n) = F :=
  Fin.ext (by rw [fieldF_val, packXyn_toNat]; omega)

theorem fieldX_packXyn (F x y n : Fin 16) : fieldX (packXyn F x y n) = x :=
  Fin.ext (by rw [fieldX_val, packXyn_toNat]; omega)

theorem fieldY_packXyn (F x y n : Fin 16) : fieldY (packXyn F x y n) = y :=
  Fin.ext (by rw [fieldY_val, packXyn_toNat]; omega)

theorem fieldN_packXyn (F x y n : Fin 16) : fieldN (packXyn F x y n) = n :=
  Fin.ext (by rw [fieldN_val, packXyn_toNat]; omega)

theorem fieldF_packXkk (F x : Fin 16) (kk : Byte) : fieldF (packXkk F x kk) = F :=
  Fin.ext (by rw [fieldF_val, packXkk_toNat]; omega)

theorem fieldX_packXkk (F x : Fin 16) (kk : Byte) : fieldX (packXkk F x kk) = x :=
  Fin.ext (by rw [fieldX_val, packXkk_toNat]; omega)

theorem fieldKk_packXkk (F x : Fin 16) (kk : Byte) : fieldKk (packXkk F x kk) = kk :=
  BitVec.eq_of_toNat_eq (by rw [fieldKk_toNat, packXkk_toNat]; omega)

theorem fieldN_packXkk_val (F x : Fin 16) (kk : Byte) : (fieldN (packXkk F x kk)).val = kk.toNat % 16 := by
  rw [fieldN_val, packXkk_toNat]; omega

theorem fieldF_packNnn (F : Fin 16) (nnn : Addr) : fieldF (packNnn F nnn) = F :=
  Fin.ext (by rw [fieldF_val, packNnn_toNat]; omega)

theorem fieldNnn_packNnn (F : Fin 16) (nnn : Addr) : fieldNnn (packNnn F nnn) = nnn :=
  BitVec.eq_of_toNat_eq (by rw [fieldNnn_toNat, packNnn_toNat]; omega)

theorem fieldX_packNnn (F : Fin 16) (nnn : Addr) : fieldX (packNnn F nnn) = topNibble nnn :=
  Fin.ext (by rw [fieldX_val, topNibble_val, packNnn_toNat]; omega)

/-- Every word is its four nibbles (R62). -/
theorem eq_packXyn (w : Word) : w = packXyn (fieldF w) (fieldX w) (fieldY w) (fieldN w) :=
  BitVec.eq_of_toNat_eq (by rw [packXyn_toNat, fieldF_val, fieldX_val, fieldY_val, fieldN_val]; omega)

/-- Every word is its family, its x and its low byte (R62). -/
theorem eq_packXkk (w : Word) : w = packXkk (fieldF w) (fieldX w) (fieldKk w) :=
  BitVec.eq_of_toNat_eq (by rw [packXkk_toNat, fieldF_val, fieldX_val, fieldKk_toNat]; omega)

/-- Every word is its family and its address field (R62). -/
theorem eq_packNnn (w : Word) : w = packNnn (fieldF w) (fieldNnn w) :=
  BitVec.eq_of_toNat_eq (by rw [packNnn_toNat, fieldF_val, fieldNnn_toNat]; omega)

/-! ### Bytes of a word (R49) -/

theorem wordOfBytes_toNat (hi lo : Byte) : (wordOfBytes hi lo).toNat = hi.toNat * 256 + lo.toNat :=
  append_toNat hi lo

theorem hiByte_toNat (w : Word) : (hiByte w).toNat = w.toNat / 256 := by
  have := w.isLt
  simp [hiByte, BitVec.extractLsb, Nat.shiftRight_eq_div_pow]; omega

theorem loByte_toNat (w : Word) : (loByte w).toNat = w.toNat % 256 := by
  simp [loByte, BitVec.extractLsb]

theorem hiByte_wordOfBytes (hi lo : Byte) : hiByte (wordOfBytes hi lo) = hi :=
  BitVec.eq_of_toNat_eq (by rw [hiByte_toNat, wordOfBytes_toNat]; omega)

theorem loByte_wordOfBytes (hi lo : Byte) : loByte (wordOfBytes hi lo) = lo :=
  BitVec.eq_of_toNat_eq (by rw [loByte_toNat, wordOfBytes_toNat]; omega)

theorem wordOfBytes_bytes (w : Word) : wordOfBytes (hiByte w) (loByte w) = w :=
  BitVec.eq_of_toNat_eq (by rw [wordOfBytes_toNat, hiByte_toNat, loByte_toNat]; omega)

end Sys2Proof
end

