-- ==== Sys2Proof/Laws/Memory.lean ====
section
/-!
SUPPORT. The laws of the memory list (log entry 4): reading after writing, and that every write keeps the canonical form.
-/

namespace Sys2Proof.Machine

variable {font : Vector Byte 80}

/-- Below the first listed address nothing is listed. -/
theorem lookup_eq_none_of_lt {m : Memory} {lo a : Nat} (h : Memory.wfFrom font lo m = true) (ha : a < lo) :
    Memory.lookup m a = none := by
  induction m generalizing lo with
  | nil => rfl
  | cons c rest ih =>
    obtain ⟨b, w⟩ := c
    simp only [Memory.wfFrom, Bool.and_eq_true, decide_eq_true_eq] at h
    have : a ≠ b := by omega
    simp only [Memory.lookup, this, if_false]
    exact ih h.2 (by omega)

/-- A listed byte of a memory a write was applied to. -/
theorem read_write_cons (b a' : Nat) (w : Byte) (rest : Memory) (h : a' ≠ b) :
    Memory.read font ((b, w) :: rest) a' = Memory.read font rest a' := by
  simp [Memory.read, Memory.lookup, h]

/-- Read after write: the address written reads as the byte written, every other address as before. -/
theorem read_write {m : Memory} {lo : Nat} (h : Memory.wfFrom font lo m = true) (a a' : Nat) (v : Byte) :
    Memory.read font (Memory.write font m a v) a' = if a' = a then v else Memory.read font m a' := by
  induction m generalizing lo with
  | nil =>
    by_cases hv : v = Memory.unlisted font a <;> by_cases ha : a' = a <;>
      simp [Memory.write, Memory.read, Memory.lookup, hv, ha]
  | cons c rest ih =>
    obtain ⟨b, w⟩ := c
    simp only [Memory.wfFrom, Bool.and_eq_true, decide_eq_true_eq] at h
    have hrest : ∀ x ≤ b, Memory.lookup rest x = none := fun x hx => lookup_eq_none_of_lt h.2 (by omega)
    rcases Nat.lt_trichotomy a b with hab | hab | hab
    · have hab' : a ≠ b := by omega
      have := hrest a (by omega)
      by_cases hv : v = Memory.unlisted font a <;> by_cases ha : a' = a <;>
        simp [Memory.write, Memory.read, Memory.lookup, hv, ha, hab, hab', this]
    · subst hab
      have := hrest a (by omega)
      by_cases hv : v = Memory.unlisted font a <;> by_cases ha : a' = a <;>
        simp [Memory.write, Memory.read, Memory.lookup, hv, ha, this]
    · have h1 : ¬ a < b := by omega
      have h2 : a ≠ b := by omega
      have hw : Memory.write font ((b, w) :: rest) a v = (b, w) :: Memory.write font rest a v := by
        simp [Memory.write, h1, h2]
      rw [hw]
      by_cases hb : a' = b
      · subst hb
        have : a' ≠ a := fun e => h2 e.symm
        simp [Memory.read, Memory.lookup, this]
      · rw [read_write_cons _ _ _ _ hb, read_write_cons _ _ _ _ hb]
        exact ih h.2

/-- A write leaves every other address as it was, whatever the form of the list. -/
theorem read_write_of_ne (m : Memory) {a a' : Nat} (v : Byte) (h : a' ≠ a) :
    Memory.read font (Memory.write font m a v) a' = Memory.read font m a' := by
  induction m with
  | nil => by_cases hv : v = Memory.unlisted font a <;> simp [Memory.write, Memory.read, Memory.lookup, hv, h]
  | cons c rest ih =>
    obtain ⟨b, w⟩ := c
    by_cases hb : a' = b
    · subst hb
      have h' : ¬ a = a' := fun e => h e.symm
      by_cases hv : v = Memory.unlisted font a <;> by_cases hl : a < a' <;>
        simp [Memory.write, Memory.read, Memory.lookup, hv, hl, h, h']
    · rw [read_write_cons b a' w rest hb, ← ih]
      by_cases hv : v = Memory.unlisted font a <;> by_cases hl : a < b <;> by_cases he : a = b <;>
        simp_all [Memory.write, Memory.read, Memory.lookup, -not_lt, -Nat.not_lt]

/-- A write keeps the canonical form. -/
theorem wfFrom_write {m : Memory} {lo : Nat} (h : Memory.wfFrom font lo m = true) {a : Nat} (v : Byte) (hlo : lo ≤ a)
    (ha : a < memSize) : Memory.wfFrom font lo (Memory.write font m a v) = true := by
  induction m generalizing lo with
  | nil => by_cases hv : v = Memory.unlisted font a <;> simp [Memory.write, Memory.wfFrom, hv, hlo, ha]
  | cons c rest ih =>
    obtain ⟨b, w⟩ := c
    have h' := h
    simp only [Memory.wfFrom, Bool.and_eq_true, decide_eq_true_eq] at h
    obtain ⟨⟨⟨hb, hbs⟩, hw⟩, hrest⟩ := h
    rcases Nat.lt_trichotomy a b with hab | hab | hab
    · by_cases hv : v = Memory.unlisted font a
      · simpa [Memory.write, hab, hv] using h'
      · have : a + 1 ≤ b := hab
        simp [Memory.write, hab, hv, Memory.wfFrom, hlo, ha, this, hbs, hw, hrest]
    · subst hab
      by_cases hv : v = Memory.unlisted font a
      · simp only [Memory.write, Nat.lt_irrefl, if_false, hv, if_true]
        cases rest with
        | nil => rfl
        | cons d r =>
          simp only [Memory.wfFrom, Bool.and_eq_true, decide_eq_true_eq] at hrest ⊢
          exact ⟨⟨⟨by omega, hrest.1.1.2⟩, hrest.1.2⟩, hrest.2⟩
      · simp [Memory.write, hv, Memory.wfFrom, hlo, ha, hrest]
    · have h1 : ¬ a < b := by omega
      have h2 : a ≠ b := by omega
      simp [Memory.write, h1, h2, Memory.wfFrom, hb, hbs, hw, ih hrest hab]

/-- A write keeps the canonical form of a whole memory. -/
theorem wf_write {m : Memory} (h : Memory.wf font m = true) {a : Nat} (v : Byte) (ha : a < memSize) :
    Memory.wf font (Memory.write font m a v) = true := wfFrom_write h v (Nat.zero_le a) ha

/-- Nothing listed is canonical: the memory at reset. -/
theorem wf_nil : Memory.wf font [] = true := rfl

/-- Copying a buffer into memory keeps the canonical form. -/
theorem wf_copyIn {m : Memory} (h : Memory.wf font m = true) (a : Nat) (bytes : List Byte)
    (hb : a + bytes.length ≤ memSize) : Memory.wf font (Memory.copyIn font m a bytes) = true := by
  induction bytes generalizing m a with
  | nil => exact h
  | cons v vs ih =>
    simp only [List.length_cons] at hb
    exact ih (wf_write h v (by omega)) (a + 1) (by omega)

/-- A copied buffer leaves every address outside it as it was, whatever the form of the list. -/
theorem read_copyIn_outside (m : Memory) (a : Nat) (bytes : List Byte) {a' : Nat}
    (h : ∀ k < bytes.length, a' ≠ a + k) :
    Memory.read font (Memory.copyIn font m a bytes) a' = Memory.read font m a' := by
  induction bytes generalizing m a with
  | nil => rfl
  | cons v vs ih =>
    rw [Memory.copyIn, ih, read_write_of_ne]
    · exact h 0 (by simp)
    · intro k hk
      have := h (k + 1) (by simpa using hk)
      omega

/-- What an address reads as after a buffer is copied in. -/
theorem read_copyIn {m : Memory} (h : Memory.wf font m = true) (a : Nat) (bytes : List Byte)
    (hb : a + bytes.length ≤ memSize) (a' : Nat) :
    Memory.read font (Memory.copyIn font m a bytes) a' =
      if a ≤ a' then (bytes[a' - a]?).getD (Memory.read font m a') else Memory.read font m a' := by
  induction bytes generalizing m a with
  | nil => simp [Memory.copyIn]
  | cons v vs ih =>
    simp only [List.length_cons] at hb
    rw [Memory.copyIn, ih (wf_write h v (by omega)) (a + 1) (by omega), read_write h]
    rcases Nat.lt_trichotomy a' a with hlt | heq | hgt
    · have h1 : ¬ a + 1 ≤ a' := by omega
      have h2 : ¬ a ≤ a' := by omega
      have h3 : a' ≠ a := by omega
      simp [h1, h2, h3]
    · subst heq; simp
    · have h1 : a + 1 ≤ a' := hgt
      have h2 : a ≤ a' := by omega
      have h3 : a' ≠ a := by omega
      have h4 : a' - a = (a' - (a + 1)) + 1 := by omega
      simp [h1, h2, h3, h4]

end Sys2Proof.Machine
end

