-- ==== Sys2Proof/Laws/State.lean ====
section
/-!
SUPPORT. One lemma per field per update of State, true by rfl, so that no later proof unfolds a record update; then what
each update does to a register read and to a byte of memory.
-/

namespace Sys2Proof.Machine

variable (s : State)

/-! ### setReg -/

@[simp] theorem setReg_V (x : RegIdx) (b : Byte) : (s.setReg x b).V = s.V.set x.val b x.isLt := rfl
@[simp] theorem setReg_I (x : RegIdx) (b : Byte) : (s.setReg x b).I = s.I := rfl
@[simp] theorem setReg_pc (x : RegIdx) (b : Byte) : (s.setReg x b).pc = s.pc := rfl
@[simp] theorem setReg_SP (x : RegIdx) (b : Byte) : (s.setReg x b).SP = s.SP := rfl
@[simp] theorem setReg_STACK (x : RegIdx) (b : Byte) : (s.setReg x b).STACK = s.STACK := rfl
@[simp] theorem setReg_DT (x : RegIdx) (b : Byte) : (s.setReg x b).DT = s.DT := rfl
@[simp] theorem setReg_ST (x : RegIdx) (b : Byte) : (s.setReg x b).ST = s.ST := rfl
@[simp] theorem setReg_KEY (x : RegIdx) (b : Byte) : (s.setReg x b).KEY = s.KEY := rfl
@[simp] theorem setReg_DISP (x : RegIdx) (b : Byte) : (s.setReg x b).DISP = s.DISP := rfl
@[simp] theorem setReg_mem (x : RegIdx) (b : Byte) : (s.setReg x b).mem = s.mem := rfl
@[simp] theorem setReg_status (x : RegIdx) (b : Byte) : (s.setReg x b).status = s.status := rfl
@[simp] theorem setReg_opcode (x : RegIdx) (b : Byte) : (s.setReg x b).opcode = s.opcode := rfl
@[simp] theorem setReg_config (x : RegIdx) (b : Byte) : (s.setReg x b).config = s.config := rfl
@[simp] theorem setReg_draws (x : RegIdx) (b : Byte) : (s.setReg x b).draws = s.draws := rfl
@[simp] theorem setReg_byteAt (x : RegIdx) (b : Byte) (a : Nat) : (s.setReg x b).byteAt a = s.byteAt a := rfl

/-! ### setI -/

@[simp] theorem setI_V (a : Word) : (s.setI a).V = s.V := rfl
@[simp] theorem setI_I (a : Word) : (s.setI a).I = a := rfl
@[simp] theorem setI_pc (a : Word) : (s.setI a).pc = s.pc := rfl
@[simp] theorem setI_SP (a : Word) : (s.setI a).SP = s.SP := rfl
@[simp] theorem setI_STACK (a : Word) : (s.setI a).STACK = s.STACK := rfl
@[simp] theorem setI_DT (a : Word) : (s.setI a).DT = s.DT := rfl
@[simp] theorem setI_ST (a : Word) : (s.setI a).ST = s.ST := rfl
@[simp] theorem setI_KEY (a : Word) : (s.setI a).KEY = s.KEY := rfl
@[simp] theorem setI_DISP (a : Word) : (s.setI a).DISP = s.DISP := rfl
@[simp] theorem setI_mem (a : Word) : (s.setI a).mem = s.mem := rfl
@[simp] theorem setI_status (a : Word) : (s.setI a).status = s.status := rfl
@[simp] theorem setI_opcode (a : Word) : (s.setI a).opcode = s.opcode := rfl
@[simp] theorem setI_config (a : Word) : (s.setI a).config = s.config := rfl
@[simp] theorem setI_draws (a : Word) : (s.setI a).draws = s.draws := rfl
@[simp] theorem setI_reg (a : Word) (z : RegIdx) : (s.setI a).reg z = s.reg z := rfl
@[simp] theorem setI_byteAt (a : Word) (b : Nat) : (s.setI a).byteAt b = s.byteAt b := rfl

/-! ### setPc -/

@[simp] theorem setPc_V (a : Word) : (s.setPc a).V = s.V := rfl
@[simp] theorem setPc_I (a : Word) : (s.setPc a).I = s.I := rfl
@[simp] theorem setPc_pc (a : Word) : (s.setPc a).pc = a := rfl
@[simp] theorem setPc_SP (a : Word) : (s.setPc a).SP = s.SP := rfl
@[simp] theorem setPc_STACK (a : Word) : (s.setPc a).STACK = s.STACK := rfl
@[simp] theorem setPc_DT (a : Word) : (s.setPc a).DT = s.DT := rfl
@[simp] theorem setPc_ST (a : Word) : (s.setPc a).ST = s.ST := rfl
@[simp] theorem setPc_KEY (a : Word) : (s.setPc a).KEY = s.KEY := rfl
@[simp] theorem setPc_DISP (a : Word) : (s.setPc a).DISP = s.DISP := rfl
@[simp] theorem setPc_mem (a : Word) : (s.setPc a).mem = s.mem := rfl
@[simp] theorem setPc_status (a : Word) : (s.setPc a).status = s.status := rfl
@[simp] theorem setPc_opcode (a : Word) : (s.setPc a).opcode = s.opcode := rfl
@[simp] theorem setPc_config (a : Word) : (s.setPc a).config = s.config := rfl
@[simp] theorem setPc_draws (a : Word) : (s.setPc a).draws = s.draws := rfl
@[simp] theorem setPc_reg (a : Word) (z : RegIdx) : (s.setPc a).reg z = s.reg z := rfl
@[simp] theorem setPc_byteAt (a : Word) (b : Nat) : (s.setPc a).byteAt b = s.byteAt b := rfl

/-! ### advance -/

@[simp] theorem advance_V (w : Word) : (s.advance w).V = s.V := rfl
@[simp] theorem advance_I (w : Word) : (s.advance w).I = s.I := rfl
@[simp] theorem advance_pc (w : Word) : (s.advance w).pc = s.pc + 2 := rfl
@[simp] theorem advance_SP (w : Word) : (s.advance w).SP = s.SP := rfl
@[simp] theorem advance_STACK (w : Word) : (s.advance w).STACK = s.STACK := rfl
@[simp] theorem advance_DT (w : Word) : (s.advance w).DT = s.DT := rfl
@[simp] theorem advance_ST (w : Word) : (s.advance w).ST = s.ST := rfl
@[simp] theorem advance_KEY (w : Word) : (s.advance w).KEY = s.KEY := rfl
@[simp] theorem advance_DISP (w : Word) : (s.advance w).DISP = s.DISP := rfl
@[simp] theorem advance_mem (w : Word) : (s.advance w).mem = s.mem := rfl
@[simp] theorem advance_status (w : Word) : (s.advance w).status = s.status := rfl
@[simp] theorem advance_opcode (w : Word) : (s.advance w).opcode = w := rfl
@[simp] theorem advance_config (w : Word) : (s.advance w).config = s.config := rfl
@[simp] theorem advance_draws (w : Word) : (s.advance w).draws = s.draws := rfl
@[simp] theorem advance_reg (w : Word) (z : RegIdx) : (s.advance w).reg z = s.reg z := rfl
@[simp] theorem advance_byteAt (w : Word) (b : Nat) : (s.advance w).byteAt b = s.byteAt b := rfl

/-! ### skip -/

@[simp] theorem skip_V : (s.skip).V = s.V := rfl
@[simp] theorem skip_I : (s.skip).I = s.I := rfl
@[simp] theorem skip_pc : (s.skip).pc = s.pc + 2 := rfl
@[simp] theorem skip_SP : (s.skip).SP = s.SP := rfl
@[simp] theorem skip_STACK : (s.skip).STACK = s.STACK := rfl
@[simp] theorem skip_DT : (s.skip).DT = s.DT := rfl
@[simp] theorem skip_ST : (s.skip).ST = s.ST := rfl
@[simp] theorem skip_KEY : (s.skip).KEY = s.KEY := rfl
@[simp] theorem skip_DISP : (s.skip).DISP = s.DISP := rfl
@[simp] theorem skip_mem : (s.skip).mem = s.mem := rfl
@[simp] theorem skip_status : (s.skip).status = s.status := rfl
@[simp] theorem skip_opcode : (s.skip).opcode = s.opcode := rfl
@[simp] theorem skip_config : (s.skip).config = s.config := rfl
@[simp] theorem skip_draws : (s.skip).draws = s.draws := rfl
@[simp] theorem skip_reg (z : RegIdx) : (s.skip).reg z = s.reg z := rfl
@[simp] theorem skip_byteAt (b : Nat) : (s.skip).byteAt b = s.byteAt b := rfl

/-! ### rewind -/

@[simp] theorem rewind_V : (s.rewind).V = s.V := rfl
@[simp] theorem rewind_I : (s.rewind).I = s.I := rfl
@[simp] theorem rewind_pc : (s.rewind).pc = s.pc - 2 := rfl
@[simp] theorem rewind_SP : (s.rewind).SP = s.SP := rfl
@[simp] theorem rewind_STACK : (s.rewind).STACK = s.STACK := rfl
@[simp] theorem rewind_DT : (s.rewind).DT = s.DT := rfl
@[simp] theorem rewind_ST : (s.rewind).ST = s.ST := rfl
@[simp] theorem rewind_KEY : (s.rewind).KEY = s.KEY := rfl
@[simp] theorem rewind_DISP : (s.rewind).DISP = s.DISP := rfl
@[simp] theorem rewind_mem : (s.rewind).mem = s.mem := rfl
@[simp] theorem rewind_status : (s.rewind).status = s.status := rfl
@[simp] theorem rewind_opcode : (s.rewind).opcode = s.opcode := rfl
@[simp] theorem rewind_config : (s.rewind).config = s.config := rfl
@[simp] theorem rewind_draws : (s.rewind).draws = s.draws := rfl
@[simp] theorem rewind_reg (z : RegIdx) : (s.rewind).reg z = s.reg z := rfl
@[simp] theorem rewind_byteAt (b : Nat) : (s.rewind).byteAt b = s.byteAt b := rfl

/-! ### setDT -/

@[simp] theorem setDT_V (v : Byte) : (s.setDT v).V = s.V := rfl
@[simp] theorem setDT_I (v : Byte) : (s.setDT v).I = s.I := rfl
@[simp] theorem setDT_pc (v : Byte) : (s.setDT v).pc = s.pc := rfl
@[simp] theorem setDT_SP (v : Byte) : (s.setDT v).SP = s.SP := rfl
@[simp] theorem setDT_STACK (v : Byte) : (s.setDT v).STACK = s.STACK := rfl
@[simp] theorem setDT_DT (v : Byte) : (s.setDT v).DT = v := rfl
@[simp] theorem setDT_ST (v : Byte) : (s.setDT v).ST = s.ST := rfl
@[simp] theorem setDT_KEY (v : Byte) : (s.setDT v).KEY = s.KEY := rfl
@[simp] theorem setDT_DISP (v : Byte) : (s.setDT v).DISP = s.DISP := rfl
@[simp] theorem setDT_mem (v : Byte) : (s.setDT v).mem = s.mem := rfl
@[simp] theorem setDT_status (v : Byte) : (s.setDT v).status = s.status := rfl
@[simp] theorem setDT_opcode (v : Byte) : (s.setDT v).opcode = s.opcode := rfl
@[simp] theorem setDT_config (v : Byte) : (s.setDT v).config = s.config := rfl
@[simp] theorem setDT_draws (v : Byte) : (s.setDT v).draws = s.draws := rfl
@[simp] theorem setDT_reg (v : Byte) (z : RegIdx) : (s.setDT v).reg z = s.reg z := rfl
@[simp] theorem setDT_byteAt (v : Byte) (b : Nat) : (s.setDT v).byteAt b = s.byteAt b := rfl

/-! ### setST -/

@[simp] theorem setST_V (v : Byte) : (s.setST v).V = s.V := rfl
@[simp] theorem setST_I (v : Byte) : (s.setST v).I = s.I := rfl
@[simp] theorem setST_pc (v : Byte) : (s.setST v).pc = s.pc := rfl
@[simp] theorem setST_SP (v : Byte) : (s.setST v).SP = s.SP := rfl
@[simp] theorem setST_STACK (v : Byte) : (s.setST v).STACK = s.STACK := rfl
@[simp] theorem setST_DT (v : Byte) : (s.setST v).DT = s.DT := rfl
@[simp] theorem setST_ST (v : Byte) : (s.setST v).ST = v := rfl
@[simp] theorem setST_KEY (v : Byte) : (s.setST v).KEY = s.KEY := rfl
@[simp] theorem setST_DISP (v : Byte) : (s.setST v).DISP = s.DISP := rfl
@[simp] theorem setST_mem (v : Byte) : (s.setST v).mem = s.mem := rfl
@[simp] theorem setST_status (v : Byte) : (s.setST v).status = s.status := rfl
@[simp] theorem setST_opcode (v : Byte) : (s.setST v).opcode = s.opcode := rfl
@[simp] theorem setST_config (v : Byte) : (s.setST v).config = s.config := rfl
@[simp] theorem setST_draws (v : Byte) : (s.setST v).draws = s.draws := rfl
@[simp] theorem setST_reg (v : Byte) (z : RegIdx) : (s.setST v).reg z = s.reg z := rfl
@[simp] theorem setST_byteAt (v : Byte) (b : Nat) : (s.setST v).byteAt b = s.byteAt b := rfl

/-! ### tick -/

@[simp] theorem tick_V : (s.tick).V = s.V := rfl
@[simp] theorem tick_I : (s.tick).I = s.I := rfl
@[simp] theorem tick_pc : (s.tick).pc = s.pc := rfl
@[simp] theorem tick_SP : (s.tick).SP = s.SP := rfl
@[simp] theorem tick_STACK : (s.tick).STACK = s.STACK := rfl
@[simp] theorem tick_DT : (s.tick).DT = countDown s.DT := rfl
@[simp] theorem tick_ST : (s.tick).ST = countDown s.ST := rfl
@[simp] theorem tick_KEY : (s.tick).KEY = s.KEY := rfl
@[simp] theorem tick_DISP : (s.tick).DISP = s.DISP := rfl
@[simp] theorem tick_mem : (s.tick).mem = s.mem := rfl
@[simp] theorem tick_status : (s.tick).status = s.status := rfl
@[simp] theorem tick_opcode : (s.tick).opcode = s.opcode := rfl
@[simp] theorem tick_config : (s.tick).config = s.config := rfl
@[simp] theorem tick_draws : (s.tick).draws = s.draws := rfl
@[simp] theorem tick_reg (z : RegIdx) : (s.tick).reg z = s.reg z := rfl
@[simp] theorem tick_byteAt (b : Nat) : (s.tick).byteAt b = s.byteAt b := rfl

/-! ### takeFault -/

@[simp] theorem takeFault_V (k : Fault) : (s.takeFault k).V = s.V := rfl
@[simp] theorem takeFault_I (k : Fault) : (s.takeFault k).I = s.I := rfl
@[simp] theorem takeFault_pc (k : Fault) : (s.takeFault k).pc = s.pc := rfl
@[simp] theorem takeFault_SP (k : Fault) : (s.takeFault k).SP = s.SP := rfl
@[simp] theorem takeFault_STACK (k : Fault) : (s.takeFault k).STACK = s.STACK := rfl
@[simp] theorem takeFault_DT (k : Fault) : (s.takeFault k).DT = s.DT := rfl
@[simp] theorem takeFault_ST (k : Fault) : (s.takeFault k).ST = s.ST := rfl
@[simp] theorem takeFault_KEY (k : Fault) : (s.takeFault k).KEY = s.KEY := rfl
@[simp] theorem takeFault_DISP (k : Fault) : (s.takeFault k).DISP = s.DISP := rfl
@[simp] theorem takeFault_mem (k : Fault) : (s.takeFault k).mem = s.mem := rfl
@[simp] theorem takeFault_status (k : Fault) : (s.takeFault k).status = .halted k := rfl
@[simp] theorem takeFault_opcode (k : Fault) : (s.takeFault k).opcode = s.opcode := rfl
@[simp] theorem takeFault_config (k : Fault) : (s.takeFault k).config = s.config := rfl
@[simp] theorem takeFault_draws (k : Fault) : (s.takeFault k).draws = s.draws := rfl
@[simp] theorem takeFault_reg (k : Fault) (z : RegIdx) : (s.takeFault k).reg z = s.reg z := rfl
@[simp] theorem takeFault_byteAt (k : Fault) (b : Nat) : (s.takeFault k).byteAt b = s.byteAt b := rfl

/-! ### loadRegs -/

@[simp] theorem loadRegs_V (x : RegIdx) (a : Nat) : (s.loadRegs x a).V = Vector.ofFn fun i : RegIdx => if i ≤ x then s.byteAt (a + i.val) else s.reg i := rfl
@[simp] theorem loadRegs_I (x : RegIdx) (a : Nat) : (s.loadRegs x a).I = s.I := rfl
@[simp] theorem loadRegs_pc (x : RegIdx) (a : Nat) : (s.loadRegs x a).pc = s.pc := rfl
@[simp] theorem loadRegs_SP (x : RegIdx) (a : Nat) : (s.loadRegs x a).SP = s.SP := rfl
@[simp] theorem loadRegs_STACK (x : RegIdx) (a : Nat) : (s.loadRegs x a).STACK = s.STACK := rfl
@[simp] theorem loadRegs_DT (x : RegIdx) (a : Nat) : (s.loadRegs x a).DT = s.DT := rfl
@[simp] theorem loadRegs_ST (x : RegIdx) (a : Nat) : (s.loadRegs x a).ST = s.ST := rfl
@[simp] theorem loadRegs_KEY (x : RegIdx) (a : Nat) : (s.loadRegs x a).KEY = s.KEY := rfl
@[simp] theorem loadRegs_DISP (x : RegIdx) (a : Nat) : (s.loadRegs x a).DISP = s.DISP := rfl
@[simp] theorem loadRegs_mem (x : RegIdx) (a : Nat) : (s.loadRegs x a).mem = s.mem := rfl
@[simp] theorem loadRegs_status (x : RegIdx) (a : Nat) : (s.loadRegs x a).status = s.status := rfl
@[simp] theorem loadRegs_opcode (x : RegIdx) (a : Nat) : (s.loadRegs x a).opcode = s.opcode := rfl
@[simp] theorem loadRegs_config (x : RegIdx) (a : Nat) : (s.loadRegs x a).config = s.config := rfl
@[simp] theorem loadRegs_draws (x : RegIdx) (a : Nat) : (s.loadRegs x a).draws = s.draws := rfl
@[simp] theorem loadRegs_byteAt (x : RegIdx) (a : Nat) (b : Nat) : (s.loadRegs x a).byteAt b = s.byteAt b := rfl

/-! ### Registers -/

/-- A register read after a register write. -/
theorem setReg_reg (x z : RegIdx) (b : Byte) : (s.setReg x b).reg z = if z = x then b else s.reg z := by
  rcases eq_or_ne z x with rfl | h
  · simp [State.reg]
  · have h' : x.val ≠ z.val := fun e => h (Fin.ext e.symm)
    simp [State.reg, h, h']

@[simp] theorem setReg_reg_self (x : RegIdx) (b : Byte) : (s.setReg x b).reg x = b := by simp [setReg_reg]

theorem setReg_reg_ne {x z : RegIdx} (b : Byte) (h : z ≠ x) : (s.setReg x b).reg z = s.reg z := by
  simp [setReg_reg, h]

/-- A register read after a block load (R118). -/
theorem loadRegs_reg (x z : RegIdx) (a : Nat) :
    (s.loadRegs x a).reg z = if z ≤ x then s.byteAt (a + z.val) else s.reg z := by
  simp [State.reg, State.byteAt]

/-! ### The conditional skip -/

theorem skipIf_true : s.skipIf true = s.skip := rfl
theorem skipIf_false : s.skipIf false = s := rfl

/-! ### The tick -/

/-- A timer after the tick, as a number: one less with a floor at 0 (R128). -/
theorem countDown_toNat (t : Byte) : (countDown t).toNat = t.toNat - 1 := by
  unfold countDown
  split
  · next h => have := t.isLt; simp only [gt_iff_lt, BitVec.lt_def, BitVec.toNat_sub] at *; simp at *; omega
  · next h => simp only [gt_iff_lt, BitVec.lt_def] at h; simp at h; simp [h]

end Sys2Proof.Machine
end

