-- ==== Sys2Proof/Laws/Ops.lean ====
section
/-!
SUPPORT. One lemma for each shared operation that says once everything it can answer; later proofs cite these and do not
unfold the operation.
-/

namespace Sys2Proof.Machine

variable {s t : State}

/-! ### Checks -/

theorem rangeOk_iff (a len : Nat) : rangeOk a len = true ↔ len = 0 ∨ a + len ≤ 4096 := by
  change (len == 0 || decide (a + len ≤ 4096)) = true ↔ _
  simp

theorem checkRange_of_ok {a len : Nat} (k : Out) (h : len = 0 ∨ a + len ≤ 4096) : checkRange a len k = k := by
  simp [checkRange, (rangeOk_iff a len).2 h]

theorem checkRange_of_not {a len : Nat} (k : Out) (h : ¬ (len = 0 ∨ a + len ≤ 4096)) :
    checkRange a len k = .fault .outOfBounds := by
  have : rangeOk a len ≠ true := fun e => h ((rangeOk_iff a len).1 e)
  simp [checkRange, this]

/-- A range check that answers next passed. -/
theorem checkRange_eq_next {a len : Nat} {k : Out} :
    checkRange a len k = .next t ↔ (len = 0 ∨ a + len ≤ 4096) ∧ k = .next t := by
  by_cases h : len = 0 ∨ a + len ≤ 4096
  · simp [checkRange_of_ok k h, h]
  · simp [checkRange_of_not k h, h]

theorem conflictFaults_iff (c : Config) (ops : List RegIdx) :
    conflictFaults c ops = true ↔ (15 : RegIdx) ∈ ops ∧ c.vfConflict = .fault := by
  simp [conflictFaults, vf]

theorem conflictCheck_of_conflict {c : Config} {ops : List RegIdx} (k : Out)
    (h : (15 : RegIdx) ∈ ops ∧ c.vfConflict = .fault) : conflictCheck c ops k = .fault .undefined := by
  simp [conflictCheck, (conflictFaults_iff c ops).2 h]

theorem conflictCheck_of_not {c : Config} {ops : List RegIdx} (k : Out)
    (h : ¬ ((15 : RegIdx) ∈ ops ∧ c.vfConflict = .fault)) : conflictCheck c ops k = k := by
  have : conflictFaults c ops ≠ true := fun e => h ((conflictFaults_iff c ops).1 e)
  simp [conflictCheck, this]

/-- A conflict check that answers next passed. -/
theorem conflictCheck_eq_next {c : Config} {ops : List RegIdx} {k : Out} :
    conflictCheck c ops k = .next t ↔ ¬ ((15 : RegIdx) ∈ ops ∧ c.vfConflict = .fault) ∧ k = .next t := by
  by_cases h : (15 : RegIdx) ∈ ops ∧ c.vfConflict = .fault
  · simp [conflictCheck_of_conflict k h, h]
  · rw [conflictCheck_of_not k h]; exact ⟨fun e => ⟨h, e⟩, fun e => e.2⟩

/-- A key index that answers next: in range or masked, and the rest answered next. -/
theorem withKeyIndex_eq_next {x : RegIdx} {k : RegIdx → Out} :
    withKeyIndex s x k = .next t ↔
      ¬ ((s.reg x).toNat > 15 ∧ s.config.keyIndexPolicy = .fault) ∧ k (lowNibble (s.reg x)) = .next t := by
  unfold withKeyIndex
  split <;> simp_all

/-- A font digit that answers next: in range or unmasked, and the rest answered next. -/
theorem withFontDigit_eq_next {x : RegIdx} {k : Byte → Out} :
    withFontDigit s x k = .next t ↔
      ¬ ((s.reg x).toNat > 15 ∧ s.config.fontDigitPolicy = .fault) ∧ k (s.reg x) = .next t := by
  unfold withFontDigit
  split <;> simp_all

/-! ### The stack -/

theorem push_of_full (k : State → Out) (h : s.SP.val = 16) : s.push k = .fault .stackOverflow := by
  simp [State.push, h]

theorem push_of_room (k : State → Out) (h : s.SP.val < 16) :
    s.push k = k { s with STACK := s.STACK.set s.SP.val s.pc h, SP := ⟨s.SP.val + 1, by omega⟩ } := by
  simp [State.push, h]

theorem pop_of_empty (h : s.SP.val = 0) : s.pop = .fault .stackUnderflow := by
  simp [State.pop, h]

theorem pop_of_pushed (h : 0 < s.SP.val) :
    s.pop = .next { s with SP := ⟨s.SP.val - 1, by omega⟩, pc := s.STACK[s.SP.val - 1] } := by
  simp [State.pop, h]

/-! ### Stores -/

/-- Where LOW_MEMORY_WRITES allows a store (R45). -/
theorem writable_iff (c : Config) (a : Nat) : writable c a = true ↔ c.lowMemoryWrites = .allow ∨ 0x200 ≤ a := by
  simp [writable]

/-- One store: it answers next exactly inside memory and where LOW_MEMORY_WRITES allows it, and changes memory alone. -/
theorem memWrite_eq_next {a : Nat} {v : Byte} :
    memWrite s a v = .next t ↔
      (a < 4096 ∧ (s.config.lowMemoryWrites = .allow ∨ 0x200 ≤ a)) ∧
        t = { s with mem := Memory.write s.config.font s.mem a v } := by
  rw [← writable_iff]
  change (if a < 4096 ∧ writable s.config a = true then _ else _) = _ ↔ _
  split
  · next h =>
    rw [Host.Outcome.next.injEq]
    exact ⟨fun e => ⟨h, e.symm⟩, fun e => e.2.symm⟩
  · next h => simp [h]

theorem memWrite_of_not {a : Nat} (v : Byte)
    (h : ¬ (a < 4096 ∧ (s.config.lowMemoryWrites = .allow ∨ 0x200 ≤ a))) : memWrite s a v = .fault .outOfBounds := by
  rw [← writable_iff] at h
  exact if_neg h

/-- A run of stores that answers next: every address is inside memory and writable (the first one, being the lowest, decides
the latter), and memory alone changes, by the bytes copied in. -/
theorem storeBytes_eq_next {a : Nat} {vs : List Byte} :
    storeBytes s a vs = .next t ↔
      (vs = [] ∨ (a + vs.length ≤ 4096 ∧ (s.config.lowMemoryWrites = .allow ∨ 0x200 ≤ a))) ∧
        t = { s with mem := Memory.copyIn s.config.font s.mem a vs } := by
  induction vs generalizing s a with
  | nil => simp [storeBytes, Memory.copyIn, eq_comm]
  | cons v vs ih =>
    by_cases h : a < 4096 ∧ (s.config.lowMemoryWrites = .allow ∨ 0x200 ≤ a)
    · have hw : memWrite s a v = .next { s with mem := Memory.write s.config.font s.mem a v } :=
        memWrite_eq_next.2 ⟨h, rfl⟩
      simp only [storeBytes, hw, ih, Memory.copyIn, List.length_cons, reduceCtorEq, false_or]
      constructor
      · rintro ⟨h1, h2⟩
        refine ⟨⟨?_, h.2⟩, h2⟩
        rcases h1 with rfl | h1
        · simpa using h.1
        · omega
      · rintro ⟨⟨h1, h2⟩, h3⟩
        refine ⟨Or.inr ⟨by omega, ?_⟩, h3⟩
        rcases h2 with h2 | h2
        · exact Or.inl h2
        · exact Or.inr (by omega)
    · simp only [storeBytes, memWrite_of_not v h, reduceCtorEq, false_iff, List.length_cons, false_or]
      rintro ⟨⟨h1, h2⟩, -⟩
      exact h ⟨by omega, h2⟩

/-- A run of stores answers next or faults OutOfBounds, nothing else. -/
theorem storeBytes_cases (s : State) (a : Nat) (vs : List Byte) :
    (∃ t, storeBytes s a vs = .next t) ∨ storeBytes s a vs = .fault .outOfBounds := by
  induction vs generalizing s a with
  | nil => exact .inl ⟨s, rfl⟩
  | cons v vs ih =>
    by_cases h : a < 4096 ∧ (s.config.lowMemoryWrites = .allow ∨ 0x200 ≤ a)
    · have hw := (memWrite_eq_next (v := v)).2 ⟨h, rfl⟩
      simpa [storeBytes, hw] using ih _ _
    · exact .inr (by simp [storeBytes, memWrite_of_not v h])

/-! ### Flags -/

/-- The write discipline of R90, register by register. -/
theorem writeResultAndFlag_reg (x z : RegIdx) (r : Byte) (f : Bool) :
    (s.writeResultAndFlag x r f).reg z =
      if z = 15 then (if x = 15 ∧ s.config.vfConflict = .resultWins then r else flagByte f)
      else if z = x then r else s.reg z := by
  unfold State.writeResultAndFlag
  split
  · next h =>
    obtain ⟨rfl, h⟩ := h
    by_cases hz : z = 15
    · subst hz; simp [vf]
    · simp [setReg_reg, vf, hz]
  · next h =>
    by_cases hz : z = 15
    · subst hz; simp_all [vf]
    · simp [setReg_reg, vf, hz]

/-- The write discipline touches the register file alone. -/
theorem writeResultAndFlag_eq (x : RegIdx) (r : Byte) (f : Bool) :
    s.writeResultAndFlag x r f = { s with V := (s.writeResultAndFlag x r f).V } := by
  unfold State.writeResultAndFlag
  split <;> rfl

/-! ### Fetch and decode -/

/-- The decode of a fetched word is the decode of that word. -/
theorem decodeFetched_eq (w : Word) :
    decodeFetched w = match decodeWord w with
      | .ok i => .ok i
      | .error _ => .error .unimplementedOpcode := by
  have h : decode [hiByte w, loByte w] = match decodeWord (wordOfBytes (hiByte w) (loByte w)) with
      | .ok i => .ok (i, [])
      | .error e => .error e := rfl
  rw [wordOfBytes_bytes] at h
  unfold decodeFetched
  rw [h]
  cases decodeWord w <;> rfl

theorem decodeFetched_eq_ok (w : Word) (i : Instr) : decodeFetched w = .ok i ↔ decodeWord w = .ok i := by
  rw [decodeFetched_eq]
  cases decodeWord w <;> simp

theorem decodeFetched_of_error {w : Word} {e : DecodeError} (h : decodeWord w = .error e) :
    decodeFetched w = .error .unimplementedOpcode := by
  rw [decodeFetched_eq, h]

theorem fetch_eq_ok {w : Word} : s.fetch = .ok w ↔ s.pc.toNat + 1 < 4096 ∧ w = s.fetchWord := by
  unfold State.fetch memSize
  split
  · next h => simp [h, eq_comm]
  · next h => simp [h]

theorem fetch_of_out (h : 4096 ≤ s.pc.toNat + 1) : s.fetch = .error .outOfBounds := by
  unfold State.fetch memSize
  rw [if_neg (by omega)]

end Sys2Proof.Machine
end

