-- ==== Sys2Proof/Laws/Display.lean ====
section
/-!
SUPPORT. The display: one pixel after a toggle or a clear, and what drawing a sprite leaves in every pixel and in the
collision (spec/42_display.md R107, R108), in the form of the wrapped mask.
-/

namespace Sys2Proof.Machine

/-! ### One pixel -/

/-- A pixel after a toggle. -/
theorem pixel_toggle (d : Display) (r r' : Fin 32) (c c' : Fin 64) :
    Display.pixel (Display.toggle d r c) r' c' =
      if r' = r ∧ c' = c then !Display.pixel d r c else Display.pixel d r' c' := by
  by_cases hr : r' = r
  · subst hr
    by_cases hc : c' = c
    · subst hc; simp [Display.pixel, Display.toggle]
    · have hc' : ¬ c.val = c'.val := fun e => hc (Fin.ext e.symm)
      simp [Display.pixel, Display.toggle, hc, hc']
  · have hr' : ¬ r.val = r'.val := fun e => hr (Fin.ext e.symm)
    simp [Display.pixel, Display.toggle, hr, hr']

/-- Two displays with the same pixels are the same display. -/
theorem display_ext {d d' : Display} (h : ∀ r c, Display.pixel d r c = Display.pixel d' r c) : d = d' := by
  apply Vector.ext
  intro r hr
  apply Vector.ext
  intro c hc
  exact h ⟨r, hr⟩ ⟨c, hc⟩

theorem pixel_clear (r : Fin 32) (c : Fin 64) : Display.pixel Display.clear r c = false := by
  simp [Display.pixel, Display.clear]

/-! ### The sprite -/

/-- The pixels of one sprite row's first `k` columns (R108). -/
def RowMask (X0 Y0 row : Nat) (b : Byte) (k : Nat) (r : Fin 32) (c : Fin 64) : Prop :=
  ∃ col < k, r = wrapRow Y0 row ∧ c = wrapCol X0 col ∧ spriteBit b col = true

/-- The pixels of a sprite's first `n` rows (R108). -/
def BlitMask (X0 Y0 : Nat) (byteOf : Nat → Byte) (n : Nat) (r : Fin 32) (c : Fin 64) : Prop :=
  ∃ row < n, RowMask X0 Y0 row (byteOf row) 8 r c

/-- What drawing the pixels of a mask makes of a display and of the collision seen so far. -/
structure Draws (M : Fin 32 → Fin 64 → Prop) (a a' : Blit) : Prop where
  inside : ∀ r c, M r c → Display.pixel a'.1 r c = !Display.pixel a.1 r c
  outside : ∀ r c, ¬ M r c → Display.pixel a'.1 r c = Display.pixel a.1 r c
  collision : a'.2 = true ↔ a.2 = true ∨ ∃ r c, M r c ∧ Display.pixel a.1 r c = true

/-- Drawing nothing. -/
theorem Draws.none {M : Fin 32 → Fin 64 → Prop} (a : Blit) (h : ∀ r c, ¬ M r c) : Draws M a a where
  inside r c hm := absurd hm (h r c)
  outside _ _ _ := rfl
  collision := by simp [h]

/-- Drawing two masks that share no pixel, one after the other, draws their union. -/
theorem Draws.union {M N U : Fin 32 → Fin 64 → Prop} {a b c : Blit} (hM : Draws M a b) (hN : Draws N b c)
    (hU : ∀ i j, U i j ↔ M i j ∨ N i j) (hdisj : ∀ i j, M i j → ¬ N i j) : Draws U a c where
  inside i j h := by
    rcases (hU i j).1 h with h | h
    · rw [hN.outside i j (hdisj i j h), hM.inside i j h]
    · rw [hN.inside i j h, hM.outside i j fun hm => hdisj i j hm h]
  outside i j h := by
    rw [hU] at h
    rw [hN.outside i j fun e => h (.inr e), hM.outside i j fun e => h (.inl e)]
  collision := by
    rw [hN.collision, hM.collision]
    constructor
    · rintro ((h | ⟨i, j, hm, hp⟩) | ⟨i, j, hn, hp⟩)
      · exact .inl h
      · exact .inr ⟨i, j, (hU i j).2 (.inl hm), hp⟩
      · exact .inr ⟨i, j, (hU i j).2 (.inr hn), by rwa [← hM.outside i j fun hm => hdisj i j hm hn]⟩
    · rintro (h | ⟨i, j, hu, hp⟩)
      · exact .inl (.inl h)
      · rcases (hU i j).1 hu with hm | hn
        · exact .inl (.inr ⟨i, j, hm, hp⟩)
        · exact .inr ⟨i, j, hn, by rwa [hM.outside i j fun hm => hdisj i j hm hn]⟩

/-- One column of one row. -/
theorem draws_blitBit (X0 Y0 row : Nat) (b : Byte) (col : Nat) (a : Blit) :
    Draws (fun r c => r = wrapRow Y0 row ∧ c = wrapCol X0 col ∧ spriteBit b col = true) a (blitBit X0 Y0 row b a col) := by
  by_cases h : spriteBit b col = true
  · have hb : blitBit X0 Y0 row b a col = (Display.toggle a.1 (wrapRow Y0 row) (wrapCol X0 col),
        a.2 || Display.pixel a.1 (wrapRow Y0 row) (wrapCol X0 col)) := by simp [blitBit, h]
    rw [hb]
    refine ⟨?_, ?_, ?_⟩
    · rintro r c ⟨rfl, rfl, -⟩; simp [pixel_toggle]
    · intro r c hm
      rw [pixel_toggle, if_neg fun e => hm ⟨e.1, e.2, h⟩]
    · simp [h]
  · have hb : blitBit X0 Y0 row b a col = a := by simp [blitBit, h]
    rw [hb]
    exact .none a fun r c hm => h hm.2.2

/-- The first `k` columns of one row: no two of them meet, k being at most 8. -/
theorem draws_columns (X0 Y0 row : Nat) (b : Byte) (a : Blit) (k : Nat) (hk : k ≤ 8) :
    Draws (RowMask X0 Y0 row b k) a ((List.range k).foldl (blitBit X0 Y0 row b) a) := by
  induction k with
  | zero => exact .none a fun r c ⟨col, h, _⟩ => absurd h (Nat.not_lt_zero col)
  | succ k ih =>
    rw [List.range_succ, List.foldl_append]
    refine (ih (by omega)).union (draws_blitBit X0 Y0 row b k _) ?_ ?_
    · intro r c
      constructor
      · rintro ⟨col, hcol, h⟩
        rcases Nat.lt_or_eq_of_le (Nat.le_of_lt_succ hcol) with hlt | rfl
        · exact .inl ⟨col, hlt, h⟩
        · exact .inr h
      · rintro (⟨col, hcol, h⟩ | h)
        · exact ⟨col, by omega, h⟩
        · exact ⟨k, by omega, h⟩
    · rintro r c ⟨col, hcol, -, hc, -⟩ ⟨-, hc', -⟩
      have : (X0 + col) % 64 = (X0 + k) % 64 := by
        have := hc.symm.trans hc'
        simpa [wrapCol] using this
      omega

/-- One row of a sprite. -/
theorem draws_blitRow (X0 Y0 row : Nat) (byteOf : Nat → Byte) (a : Blit) :
    Draws (RowMask X0 Y0 row (byteOf row) 8) a (blitRow X0 Y0 byteOf a row) :=
  draws_columns X0 Y0 row (byteOf row) a 8 (Nat.le_refl 8)

/-- A sprite of at most 32 rows draws its mask: no two of its rows meet (R108). -/
theorem draws_rows (X0 Y0 : Nat) (byteOf : Nat → Byte) (a : Blit) (n : Nat) (hn : n ≤ 32) :
    Draws (BlitMask X0 Y0 byteOf n) a ((List.range n).foldl (blitRow X0 Y0 byteOf) a) := by
  induction n with
  | zero => exact .none a fun r c ⟨row, h, _⟩ => absurd h (Nat.not_lt_zero row)
  | succ n ih =>
    rw [List.range_succ, List.foldl_append]
    refine (ih (by omega)).union (draws_blitRow X0 Y0 n byteOf _) ?_ ?_
    · intro r c
      constructor
      · rintro ⟨row, hrow, h⟩
        rcases Nat.lt_or_eq_of_le (Nat.le_of_lt_succ hrow) with hlt | rfl
        · exact .inl ⟨row, hlt, h⟩
        · exact .inr h
      · rintro (⟨row, hrow, h⟩ | h)
        · exact ⟨row, by omega, h⟩
        · exact ⟨n, by omega, h⟩
    · rintro r c ⟨row, hrow, -, -, hr, -⟩ ⟨-, -, hr', -⟩
      have : (Y0 + row) % 32 = (Y0 + n) % 32 := by
        have := hr.symm.trans hr'
        simpa [wrapRow] using this
      omega

/-- The blit of DRW draws its mask, from no collision. -/
theorem draws_blit (X0 Y0 n : Nat) (byteOf : Nat → Byte) (d : Display) (hn : n ≤ 32) :
    Draws (BlitMask X0 Y0 byteOf n) (d, false) (blit X0 Y0 n byteOf d) := draws_rows X0 Y0 byteOf (d, false) n hn

end Sys2Proof.Machine
end

