-- ==== Sys2Proof/Laws/Step.lean ====
section
/-!
SUPPORT. What a step can do, said once: the cases of a step of a running block, and that no handler refuses.
-/

namespace Sys2Proof.Machine

variable {s t : State}

/-- No handler refuses: every instruction answers a next state or a fault of R119. -/
theorem exec_not_refused (i : Instr) (s : State) (r : Refusal) : exec i s ≠ .refused r := by
  have hk (x) (k : RegIdx → Out) (h : ∀ j, k j ≠ .refused r) : withKeyIndex s x k ≠ .refused r := by
    unfold withKeyIndex; split
    · simp
    · exact h _
  have hd (x) (k : Byte → Out) (h : ∀ j, k j ≠ .refused r) : withFontDigit s x k ≠ .refused r := by
    unfold withFontDigit; split
    · simp
    · exact h _
  have hc (ops) (k : Out) (h : k ≠ .refused r) : conflictCheck s.config ops k ≠ .refused r := by
    unfold conflictCheck; split
    · simp
    · exact h
  have hr (a n) (k : Out) (h : k ≠ .refused r) : checkRange a n k ≠ .refused r := by
    unfold checkRange; split
    · exact h
    · simp
  have hs (a vs r) : storeBytes s a vs ≠ .refused r := by
    rcases storeBytes_cases s a vs with ⟨t, h⟩ | h <;> simp [h]
  cases i
  case ret => simp only [exec, execRet, State.pop]; split <;> simp
  case call => simp only [exec, execCall, State.push]; split <;> simp
  case skp => simp only [exec, execSkp]; refine hk _ _ ?_; rintro _ ⟨⟩
  case sknp => simp only [exec, execSknp]; refine hk _ _ ?_; rintro _ ⟨⟩
  case ldFVx => simp only [exec, execLdFVx]; refine hd _ _ ?_; rintro _ ⟨⟩
  case ldVxK => simp only [exec, execLdVxK]; split <;> simp
  case ldBVx => exact hr _ _ _ (hs _ _ _)
  case ldMemVx =>
    refine hr _ _ _ ?_
    split
    · simp
    · simp
    · next h => exact absurd h (hs _ _ _)
  case ldVxMem => refine hr _ _ _ ?_; rintro ⟨⟩
  case drw => refine hc _ _ (hr _ _ _ ?_); rintro ⟨⟩
  case addReg => refine hc _ _ ?_; rintro ⟨⟩
  case subReg => refine hc _ _ ?_; rintro ⟨⟩
  case subnReg => refine hc _ _ ?_; rintro ⟨⟩
  case shr => refine hc _ _ ?_; rintro ⟨⟩
  case shl => refine hc _ _ ?_; rintro ⟨⟩
  all_goals rintro ⟨⟩

/-- A halted block refuses (R122). -/
theorem step_of_halted {k : Fault} (h : s.status = .halted k) : step s = .refused (.halted k) := by
  simp [step, h]

/-- A fetch out of bounds is taken as a fault (R60, R121). -/
theorem step_of_fetch_error (hs : s.status = .running) {k : Fault} (h : s.fetch = .error k) :
    step s = .next (s.takeFault k) := by
  simp [step, hs, h]

/-- An illegal word is taken as a fault (R71, R121). -/
theorem step_of_illegal (hs : s.status = .running) {w : Word} (hw : s.fetch = .ok w) {e : DecodeError}
    (h : decodeWord w = .error e) : step s = .next (s.takeFault .unimplementedOpcode) := by
  simp [step, hs, hw, decodeFetched_of_error h]

/-- A legal word runs its instruction on the advanced state (R59). -/
theorem step_of_decoded (hs : s.status = .running) {w : Word} (hw : s.fetch = .ok w) {i : Instr}
    (h : decodeWord w = .ok i) : step s = finishStep s (exec i (s.advance w)) := by
  simp [step, hs, hw, (decodeFetched_eq_ok w i).2 h]

/-- Everything a step that answers next can be: a fault taken in the state before it, or the tick after a handler that
answered next on the advanced state of the fetched, decoded word. -/
theorem step_cases (h : step s = .next t) :
    s.status = .running ∧
      ((∃ k, t = s.takeFault k) ∨
        ∃ w i u, s.fetch = .ok w ∧ decodeWord w = .ok i ∧ exec i (s.advance w) = .next u ∧ t = u.tick) := by
  cases hs : s.status with
  | halted k => rw [step_of_halted hs] at h; cases h
  | running =>
    refine ⟨rfl, ?_⟩
    cases hw : s.fetch with
    | error k =>
      rw [step_of_fetch_error hs hw] at h
      exact .inl ⟨k, by injection h with h; exact h.symm⟩
    | ok w =>
      cases hd : decodeWord w with
      | error e =>
        rw [step_of_illegal hs hw hd] at h
        exact .inl ⟨_, by injection h with h; exact h.symm⟩
      | ok i =>
        rw [step_of_decoded hs hw hd] at h
        cases he : exec i (s.advance w) with
        | next u =>
          rw [he] at h
          exact .inr ⟨w, i, u, rfl, hd, he, by injection h with h; exact h.symm⟩
        | fault k =>
          rw [he] at h
          exact .inl ⟨k, by injection h with h; exact h.symm⟩
        | refused r => exact absurd he (exec_not_refused i _ r)

end Sys2Proof.Machine
end

