-- ==== Sys2Proof/Laws/Frame.lean ====
section
/-!
SUPPORT. What each shared operation leaves unchanged, in the terms of `ChangesOnly` (spec/10_state.md R38), and how such
facts compose.
-/

namespace Sys2Proof.Machine

variable {s t u : State}

/-! ### Composition -/

theorem changesOnly_refl (P : Part → Prop) (s : State) : ChangesOnly P s s := by
  intro p _
  cases p <;> rfl

theorem changesOnly_mono {P Q : Part → Prop} (h : ChangesOnly P s t) (hPQ : ∀ p, P p → Q p) : ChangesOnly Q s t :=
  fun p hp => h p fun e => hp (hPQ p e)

theorem changesOnly_trans {P Q : Part → Prop} (h : ChangesOnly P s t) (k : ChangesOnly Q t u) :
    ChangesOnly (fun p => P p ∨ Q p) s u := by
  intro p hp
  have a := h p fun e => hp (.inl e)
  have b := k p fun e => hp (.inr e)
  cases p <;> exact Eq.trans b a

/-- A handler that answers a state known to change only P. -/
theorem changesOnly_of_next {P : Part → Prop} (h : (Host.Outcome.next u : Out) = .next t) (k : ChangesOnly P s u) :
    ChangesOnly P s t := by
  injection h with h
  exact h ▸ k

/-! ### The operations -/

theorem changesOnly_setReg (s : State) (x : RegIdx) (b : Byte) : ChangesOnly (fun p => p = .reg x) s (s.setReg x b) := by
  intro p hp
  cases p <;> simp_all [Part.same, setReg_reg]

theorem changesOnly_setI (s : State) (a : Word) : ChangesOnly (fun p => p = .I) s (s.setI a) := by
  intro p hp
  cases p <;> simp_all [Part.same]

theorem changesOnly_setPc (s : State) (a : Word) : ChangesOnly (fun p => p = .pc) s (s.setPc a) := by
  intro p hp
  cases p <;> simp_all [Part.same]

theorem changesOnly_skipIf (s : State) (c : Bool) : ChangesOnly (fun p => p = .pc) s (s.skipIf c) := by
  cases c <;> (intro p hp; cases p <;> simp_all [State.skipIf, Part.same])

theorem changesOnly_setDT (s : State) (v : Byte) : ChangesOnly (fun p => p = .DT) s (s.setDT v) := by
  intro p hp
  cases p <;> simp_all [Part.same, State.setDT, State.reg, State.byteAt]

theorem changesOnly_setST (s : State) (v : Byte) : ChangesOnly (fun p => p = .ST) s (s.setST v) := by
  intro p hp
  cases p <;> simp_all [Part.same, State.setST, State.reg, State.byteAt]

theorem changesOnly_tick (s : State) : ChangesOnly (fun p => p = .DT ∨ p = .ST) s s.tick := by
  intro p hp
  cases p <;> simp_all [Part.same, State.tick, State.reg, State.byteAt]

theorem changesOnly_advance (s : State) (w : Word) : ChangesOnly (fun p => p = .pc ∨ p = .opcode) s (s.advance w) := by
  intro p hp
  cases p <;> simp_all [Part.same]

theorem changesOnly_writeResultAndFlag (s : State) (x : RegIdx) (r : Byte) (f : Bool) :
    ChangesOnly (fun p => p = .reg x ∨ p = .reg 15) s (s.writeResultAndFlag x r f) := by
  intro p hp
  cases p
  case reg z =>
    simp only [Part.reg.injEq, not_or] at hp
    simp [Part.same, writeResultAndFlag_reg, hp.1, hp.2]
  all_goals
    unfold Part.same
    rw [writeResultAndFlag_eq]
    try rfl

theorem changesOnly_loadRegs (s : State) (x : RegIdx) (a : Nat) :
    ChangesOnly (fun p => ∃ z, z ≤ x ∧ p = .reg z) s (s.loadRegs x a) := by
  intro p hp
  cases p
  case reg z =>
    have : ¬ z ≤ x := fun e => hp ⟨z, e, rfl⟩
    simp [Part.same, loadRegs_reg, this]
  all_goals simp [Part.same]

theorem changesOnly_advanceI (s : State) (x : RegIdx) :
    ChangesOnly (fun p => p = .I ∧ s.config.loadStoreIncrementsI = true) s (s.advanceI x) := by
  unfold State.advanceI
  split
  · next h => exact fun p hp => changesOnly_setI s _ p fun e => hp ⟨e, h⟩
  · exact changesOnly_refl _ _

theorem changesOnly_copyIn (s : State) (a : Nat) (bytes : List Byte) :
    ChangesOnly (fun p => ∃ k < bytes.length, p = .byte (a + k)) s
      { s with mem := Memory.copyIn s.config.font s.mem a bytes } := by
  intro p hp
  cases p
  case byte b => exact read_copyIn_outside s.mem a bytes fun k hk e => hp ⟨k, hk, by rw [e]⟩
  all_goals rfl

/-- The sprite touches at most the pixels of its wrapped rows and columns (R107). -/
theorem pixel_blit_outside (X0 Y0 n : Nat) (byteOf : Nat → Byte) (d : Display) (hn : n ≤ 32) (r : Fin 32) (c : Fin 64)
    (h : ¬ ∃ row < n, ∃ col < 8, r = wrapRow Y0 row ∧ c = wrapCol X0 col) :
    Display.pixel (blit X0 Y0 n byteOf d).1 r c = Display.pixel d r c :=
  (draws_blit X0 Y0 n byteOf d hn).outside r c fun ⟨row, hrow, col, hcol, hr, hc, _⟩ => h ⟨row, hrow, col, hcol, hr, hc⟩

end Sys2Proof.Machine
end

