-- ==== Sys2Proof/Tests/Slice0.lean ====
section
/-!
SUPPORT. Tests of the model: the well-formedness check, the decoding of words written out from the spec's encodings
(spec/30_encoding.md R62 to R72), the spec's own test vectors (spec/95_test_vectors.md) one step at a time, and for every
statement with hypotheses a theorem with a concrete state that meets them.
-/

namespace Sys2Proof.Tests

open Sys2Proof.Machine

/-! ### Helpers -/

/-- The reset state with some registers set. -/
def regs (vs : List (RegIdx × Byte)) (s : State := State.reset) : State := vs.foldl (fun t v => t.setReg v.1 v.2) s

/-- The defaults of R6 with some parameters changed. -/
def withConfig (c : Config) (s : State := State.reset) : State := { s with config := c }

/-- Whether the step that fetches a word in s answers next with a state that passes a check. -/
def ends (word : Nat) (s : State) (check : State → Bool) : Bool :=
  match step (s.withFetchWord 16 word) with
  | .next t => check t
  | .fault _ => false
  | .refused _ => false

/-- Whether the step that fetches a word in s faults with k and keeps pc, SP, the registers, I and DT (R121). -/
def faults (word : Nat) (s : State) (k : Fault) : Bool :=
  ends word s fun t =>
    t.status == .halted k && t.pc == s.pc && t.SP == s.SP && t.V == s.V && t.I == s.I && t.DT == s.DT

/-- Whether a handler answers next. -/
def answersNext (o : Out) : Bool :=
  match o with
  | .next _ => true
  | .fault _ => false
  | .refused _ => false

theorem answersNext_exists {o : Out} (h : answersNext o = true) : ∃ t, o = .next t := by
  cases o with
  | next t => exact ⟨t, rfl⟩
  | fault _ => cases h
  | refused _ => cases h

/-! ### The well-formedness check: Bnnn's two fields overlap (R63) -/

theorem test_wellFormed_refuses_jpOffset_with_another_x : ¬ (Instr.jpOffset 0x20A 3).WellFormed := by decide
theorem test_wellFormed_accepts_jpOffset : (Instr.jpOffset 0x20A 2).WellFormed := by decide

/-! ### Decoding: one word per constructor, written out from R66 to R70 -/

theorem test_decode_family0 :
    decodeWord 0b0000_0000_1110_0000 = .ok .cls ∧ decodeWord 0b0000_0000_1110_1110 = .ok .ret := by decide

theorem test_decode_addresses :
    decodeWord 0b0001_1010_1011_1100 = .ok (.jp 0xABC) ∧ decodeWord 0b0010_0100_0000_0001 = .ok (.call 0x401) ∧
    decodeWord 0b1010_0010_1111_0000 = .ok (.ldI 0x2F0) ∧
    decodeWord 0b1011_0011_0000_0101 = .ok (.jpOffset 0x305 3) := by decide

theorem test_decode_immediates :
    decodeWord 0b0011_0011_0100_0010 = .ok (.seImm 3 0x42) ∧ decodeWord 0b0100_1100_0100_0001 = .ok (.sneImm 0xC 0x41) ∧
    decodeWord 0b0110_1010_0010_1111 = .ok (.ldImm 0xA 0x2F) ∧
    decodeWord 0b0111_0010_1111_1110 = .ok (.addImm 2 0xFE) ∧
    decodeWord 0b1100_0011_0000_1111 = .ok (.rnd 3 0x0F) := by decide

theorem test_decode_registers :
    decodeWord 0b0101_0001_0010_0000 = .ok (.seReg 1 2) ∧ decodeWord 0b1001_0001_0010_0000 = .ok (.sneReg 1 2) ∧
    decodeWord 0b1101_0001_0010_0101 = .ok (.drw 1 2 5) := by decide

theorem test_decode_family8 :
    decodeWord 0b1000_0110_1001_0000 = .ok (.ldReg 6 9) ∧ decodeWord 0b1000_0110_1001_0001 = .ok (.orReg 6 9) ∧
    decodeWord 0b1000_0110_1001_0010 = .ok (.andReg 6 9) ∧ decodeWord 0b1000_0110_1001_0011 = .ok (.xorReg 6 9) ∧
    decodeWord 0b1000_0110_1001_0100 = .ok (.addReg 6 9) ∧ decodeWord 0b1000_0110_1001_0101 = .ok (.subReg 6 9) ∧
    decodeWord 0b1000_0110_1001_0110 = .ok (.shr 6 9) ∧ decodeWord 0b1000_0110_1001_0111 = .ok (.subnReg 6 9) ∧
    decodeWord 0b1000_0110_1001_1110 = .ok (.shl 6 9) := by decide

theorem test_decode_familyE :
    decodeWord 0b1110_0101_1001_1110 = .ok (.skp 5) ∧ decodeWord 0b1110_0101_1010_0001 = .ok (.sknp 5) := by decide

theorem test_decode_familyF :
    decodeWord 0b1111_1011_0000_0111 = .ok (.ldVxDt 0xB) ∧ decodeWord 0b1111_1011_0000_1010 = .ok (.ldVxK 0xB) ∧
    decodeWord 0b1111_1011_0001_0101 = .ok (.ldDtVx 0xB) ∧ decodeWord 0b1111_1011_0001_1000 = .ok (.ldStVx 0xB) ∧
    decodeWord 0b1111_1011_0001_1110 = .ok (.addIVx 0xB) ∧ decodeWord 0b1111_1011_0010_1001 = .ok (.ldFVx 0xB) ∧
    decodeWord 0b1111_1011_0011_0011 = .ok (.ldBVx 0xB) ∧ decodeWord 0b1111_1011_0101_0101 = .ok (.ldMemVx 0xB) ∧
    decodeWord 0b1111_1011_0110_0101 = .ok (.ldVxMem 0xB) := by decide

/-- Test vectors S6, S10, S11 and S13. -/
theorem test_decode_refuses_illegal_words :
    ∀ w ∈ [0x0123, 0x8008, 0x8009, 0x800A, 0x800B, 0x800C, 0x800D, 0x800F, 0xE000, 0xE0A0, 0xF000, 0xF0FF, 0xF066],
      decodeTableWord 16 w = none := by decide

/-! ### The step, fetch and faults (test vectors S2 to S5, S9, S15, RL3, RL7) -/

theorem test_S2_fetch_is_big_endian :
    (match step { State.reset with mem := [(0x200, 0x12), (0x201, 0x34)] } with
      | .next t => t.pc == 0x234
      | _ => false) = true := by decide
theorem test_S4_last_word_runs : ends 0x6000 { State.reset with pc := 0xFFE } (fun t => t.pc == 0x1000) = true := by decide
theorem test_S5_odd_pc : ends 0x6123 { State.reset with pc := 0x201 } (fun t => t.reg 1 == 0x23 && t.pc == 0x203) = true := by
  decide
theorem test_E10_fetch_bound : faults 0 { State.reset with pc := 0xFFF } .outOfBounds = true := by decide
theorem test_S15_halted_refuses :
    step { State.reset with status := .halted .unimplementedOpcode } = .refused (.halted .unimplementedOpcode) := rfl
theorem test_RL7_fault_does_not_tick : faults 0x8008 { State.reset with DT := 3 } .unimplementedOpcode = true := by decide
theorem test_RL3_load_too_large :
    State.reset.loadProgram (List.replicate 3585 0) = { State.reset with status := .halted .programTooLarge } := by
  unfold State.loadProgram
  rw [if_pos (by rw [List.length_replicate]; decide)]
  rfl

/-! ### Control flow (test vectors CF1 to CF22) -/

theorem test_CF1_jp : ends 0x1ABC State.reset (fun t => t.pc == 0xABC) = true := by decide
theorem test_CF3_call :
    ends 0x2400 { State.reset with SP := 15 } (fun t => t.SP == 16 && t.STACK[15] == 0x202 && t.pc == 0x400) = true := by decide
theorem test_CF4_call_overflow : faults 0x2400 { State.reset with SP := 16 } .stackOverflow = true := by decide
theorem test_CF5_ret :
    ends 0x00EE { State.reset with SP := 1, STACK := State.reset.STACK.set 0 0x202, pc := 0x400 }
      (fun t => t.SP == 0 && t.pc == 0x202 && t.STACK[0] == 0x202) = true := by decide
theorem test_CF6_ret_underflow : faults 0x00EE State.reset .stackUnderflow = true := by decide
theorem test_CF7_se_imm : ends 0x3342 (regs [(3, 0x42)]) (fun t => t.pc == 0x204) = true := by decide
theorem test_CF8_se_imm_no_skip : ends 0x3342 (regs [(3, 0x41)]) (fun t => t.pc == 0x202) = true := by decide
theorem test_CF9_sne_imm : ends 0x4342 (regs [(3, 0x41)]) (fun t => t.pc == 0x204) = true := by decide
theorem test_CF11_se_reg : ends 0x5120 (regs [(1, 5), (2, 5)]) (fun t => t.pc == 0x204) = true := by decide
theorem test_CF12_sne_reg : ends 0x9120 (regs [(1, 5), (2, 6)]) (fun t => t.pc == 0x204) = true := by decide
theorem test_CF15_jp_offset_vx :
    ends 0xB300 (regs [(0, 0x10), (3, 0x20)] (withConfig { defaultConfig with jumpOffsetReg := .vx }))
      (fun t => t.pc == 0x320) = true := by decide
theorem test_CF16_jp_offset_v0 : ends 0xBFFF (regs [(0, 0xFF)]) (fun t => t.pc == 0x10FE) = true := by decide
theorem test_CF17_skp : ends 0xE59E (regs [(5, 0xA)] (State.reset.writeKey 10 true)) (fun t => t.pc == 0x204) = true := by
  decide
theorem test_CF19_sknp : ends 0xE5A1 (regs [(5, 0xA)]) (fun t => t.pc == 0x204) = true := by decide
theorem test_CF21_skp_bad_key : faults 0xE09E (regs [(0, 0x10)]) .undefined = true := by decide
theorem test_CF22_skp_low_nibble :
    ends 0xE09E (regs [(0, 0x11)] ((withConfig { defaultConfig with keyIndexPolicy := .lowNibble }).writeKey 1 true))
      (fun t => t.pc == 0x204) = true := by decide

/-! ### ALU (test vectors A1 to A28, VC2 to VC9) -/

theorem test_A1_ld_imm : ends 0x6A2F State.reset (fun t => t.reg 10 == 0x2F && t.pc == 0x202) = true := by decide
theorem test_A2_add_imm_no_flag : ends 0x7202 (regs [(2, 0xFF)]) (fun t => t.reg 2 == 1 && t.reg 15 == 0) = true := by decide
theorem test_A4_add_imm_vf : ends 0x7F01 (regs [(15, 0xFE)]) (fun t => t.reg 15 == 0xFF) = true := by decide
theorem test_A5_ld_reg : ends 0x8010 (regs [(1, 0x33)]) (fun t => t.reg 0 == 0x33 && t.reg 1 == 0x33) = true := by decide
theorem test_A7_or :
    ends 0x8011 (regs [(0, 0xF0), (1, 0x0F), (15, 7)]) (fun t => t.reg 0 == 0xFF && t.reg 15 == 7) = true := by decide
theorem test_A8_and : ends 0x8012 (regs [(0, 0xF0), (1, 0x3C)]) (fun t => t.reg 0 == 0x30) = true := by decide
theorem test_A9_xor : ends 0x8013 (regs [(0, 0xFF), (1, 0x0F)]) (fun t => t.reg 0 == 0xF0) = true := by decide
theorem test_E4_add : ends 0x8014 (regs [(0, 200), (1, 100)]) (fun t => t.reg 0 == 44 && t.reg 15 == 1) = true := by decide
theorem test_A12_add_no_carry :
    ends 0x8014 (regs [(0, 128), (1, 127), (15, 9)]) (fun t => t.reg 0 == 255 && t.reg 15 == 0) = true := by decide
theorem test_A15_sub_borrow :
    ends 0x8015 (regs [(0, 3), (1, 10)]) (fun t => t.reg 0 == 249 && t.reg 15 == 0) = true := by decide
theorem test_A16_sub_equal :
    ends 0x8015 (regs [(0, 5), (1, 5), (15, 1)]) (fun t => t.reg 0 == 0 && t.reg 15 == 0) = true := by decide
theorem test_A17_subn : ends 0x8017 (regs [(0, 3), (1, 10)]) (fun t => t.reg 0 == 7 && t.reg 15 == 1) = true := by decide
theorem test_A22_shr_ignores_vy :
    ends 0x8016 (regs [(0, 5), (1, 6)]) (fun t => t.reg 0 == 2 && t.reg 15 == 1) = true := by decide
theorem test_A23_shr_copies_vy :
    ends 0x8016 (regs [(0, 4), (1, 3)] (withConfig { defaultConfig with shiftCopiesVy := true }))
      (fun t => t.reg 0 == 1 && t.reg 15 == 1 && t.reg 1 == 3) = true := by decide
theorem test_A24_shl : ends 0x800E (regs [(0, 0x81)]) (fun t => t.reg 0 == 2 && t.reg 15 == 1) = true := by decide
theorem test_A28_shl_conflict_through_vy :
    faults 0x80FE (withConfig { defaultConfig with shiftCopiesVy := true }) .undefined = true := by decide
theorem test_VC1_conflict_faults : faults 0x8F04 (regs [(15, 200), (0, 100)]) .undefined = true := by decide
theorem test_VC2_flag_wins :
    ends 0x8F04 (regs [(15, 200), (0, 100)] (withConfig { defaultConfig with vfConflict := .flagWins }))
      (fun t => t.reg 15 == 1) = true := by decide
theorem test_VC3_result_wins :
    ends 0x8F04 (regs [(15, 200), (0, 100)] (withConfig { defaultConfig with vfConflict := .resultWins }))
      (fun t => t.reg 15 == 44) = true := by decide
theorem test_VC6_result_wins_through_vy :
    ends 0x80F4 (regs [(15, 200), (0, 100)] (withConfig { defaultConfig with vfConflict := .resultWins }))
      (fun t => t.reg 0 == 44 && t.reg 15 == 1) = true := by decide

/-- A30: a mask of 0 gives 0 whatever the draw. -/
theorem test_A30_rnd_masks (s : State) : ∃ t, exec (.rnd 3 0) s = .next t ∧ t.reg 3 = 0 := by
  refine ⟨_, rfl, ?_⟩
  change (s.setReg 3 (Config.drawByte s.draws &&& 0)).reg 3 = 0
  simp

/-! ### Display (test vectors E5, E6, D3 to D8, RL8) -/

/-- The columns on in one row. -/
def lit (s : State) (r : Fin 32) : List Nat :=
  ((List.finRange 64).filter fun c => Display.pixel s.DISP r c).map Fin.val

theorem test_E5_draw_wraps :
    ends 0xD011 (regs [(0, 60)] { State.reset with I := 0x300, mem := [(0x300, 0xFF)] })
      (fun t => lit t 0 == [0, 1, 2, 3, 60, 61, 62, 63] && t.reg 15 == 0) = true := by
  decide
theorem test_D2_partial_collision :
    ends 0xD011 { State.reset with I := 0x300, mem := [(0x300, 0xC0)], DISP := Display.toggle Display.clear 0 0 }
      (fun t => lit t 0 == [1] && t.reg 15 == 1) = true := by decide
theorem test_D6_draw_out_of_bounds : faults 0xD013 { State.reset with I := 0xFFE } .outOfBounds = true := by decide
theorem test_D5_draw_nothing :
    ends 0xD010 (regs [(15, 1)] { State.reset with I := 0xFFFF }) (fun t => lit t 0 == [] && t.reg 15 == 0) = true := by decide
theorem test_RL8_undefined_first : faults 0xDFF3 { State.reset with I := 0xFFE } .undefined = true := by decide
theorem test_D8_cls :
    ends 0x00E0 (regs [(15, 1)] { State.reset with DISP := Display.toggle Display.clear 7 5 })
      (fun t => lit t 7 == [] && t.reg 15 == 1) = true := by decide
theorem test_D3_draw_wraps_down :
    ends 0xD012 (regs [(1, 31)] { State.reset with I := 0x300, mem := [(0x300, 0x80), (0x301, 0x80)] })
      (fun t => lit t 31 == [0] && lit t 0 == [0] && t.reg 15 == 0) = true := by decide

/-! ### Index, timers, key wait and memory transfer (test vectors M1 to M31) -/

theorem test_M1_ld_i : ends 0xA2F0 State.reset (fun t => t.I == 0x2F0) = true := by decide
theorem test_M2_read_dt : ends 0xF307 { State.reset with DT := 0x20 } (fun t => t.reg 3 == 0x20 && t.DT == 0x1F) = true := by
  decide
theorem test_M3_set_dt : ends 0xF215 (regs [(2, 5)]) (fun t => t.DT == 4) = true := by decide
theorem test_M4_set_dt_anomaly :
    ends 0xF215 (regs [(2, 5)] (withConfig { defaultConfig with anomalyACompat := true })) (fun t => t.DT == 1) = true := by
  decide
theorem test_M7_set_st :
    ends 0xF418 (regs [(4, 0x10)] (withConfig { defaultConfig with anomalyACompat := true })) (fun t => t.ST == 0x0F) = true := by
  decide
theorem test_M8_key_wait : ends 0xF00A { State.reset with DT := 3 } (fun t => t.pc == 0x200 && t.DT == 2) = true := by decide
theorem test_M9_key_lowest :
    ends 0xF00A ((State.reset.writeKey 9 true).writeKey 7 true) (fun t => t.reg 0 == 7 && t.pc == 0x202) = true := by decide
theorem test_M12_add_i_anomaly :
    ends 0xF11E (regs [(1, 0x10)] { withConfig { defaultConfig with anomalyACompat := true } with I := 0x300 })
      (fun t => t.I == 0x301) = true := by decide
theorem test_M14_add_i_wraps : ends 0xF01E (regs [(0, 2)] { State.reset with I := 0xFFFF }) (fun t => t.I == 1) = true := by
  decide
theorem test_M17_ld_f : ends 0xF029 (regs [(0, 15)]) (fun t => t.I == 0x9B) = true := by decide
theorem test_M18_ld_f_bad_digit : faults 0xF029 (regs [(0, 16)]) .undefined = true := by decide
theorem test_E9_bcd :
    ends 0xF533 (regs [(5, 154)] { State.reset with I := 0x300 })
      (fun t => t.byteAt 0x300 == 1 && t.byteAt 0x301 == 5 && t.byteAt 0x302 == 4 && t.I == 0x300) = true := by decide
theorem test_M24_bcd_low_write :
    faults 0xF133 { withConfig { defaultConfig with lowMemoryWrites := .fault } with I := 0x1FF } .outOfBounds = true := by
  decide
theorem test_M27_store_block :
    ends 0xF255 (regs [(0, 1), (1, 2), (2, 3), (3, 4)]
        { withConfig { defaultConfig with loadStoreIncrementsI := true } with I := 0x300 })
      (fun t => t.byteAt 0x300 == 1 && t.byteAt 0x302 == 3 && t.byteAt 0x303 == 0 && t.I == 0x303) = true := by decide
theorem test_M29_store_block_out_of_bounds : faults 0xF155 { State.reset with I := 0xFFF } .outOfBounds = true := by decide
theorem test_M30_load_block :
    ends 0xF265 (regs [(3, 9)] { State.reset with I := 0x300, mem := [(0x300, 1), (0x301, 2), (0x302, 3)] })
      (fun t => t.reg 0 == 1 && t.reg 1 == 2 && t.reg 2 == 3 && t.reg 3 == 9 && t.I == 0x300) = true := by decide
theorem test_M32_load_block_out_of_bounds : faults 0xF165 { State.reset with I := 0xFFF } .outOfBounds = true := by decide

/-! ### Witnesses: concrete states that meet the hypotheses of each statement, clause by clause -/

/-- A word in the next place to be fetched, on the reset state. -/
def at200 (word : Nat) : State := State.reset.withFetchWord 16 word

/-- The reset state with I set and LOW_MEMORY_WRITES = fault. -/
def lowFault (i : Word) : State := { withConfig { defaultConfig with lowMemoryWrites := .fault } with I := i }

/-- The reset state with I set. -/
def withI (i : Word) : State := { State.reset with I := i }

theorem witness_DecodeOfEncodeIsIdentity :
    (Instr.jpOffset 0xFFF 15).WellFormed ∧ (Instr.jpOffset 0x0FF 0).WellFormed ∧ (Instr.drw 15 0 15).WellFormed := by decide

theorem witness_DecodedWordIsCanonicalUpToUndecodedBits :
    decodeWord 0x5127 = .ok (.seReg 1 2) ∧ decodeWord 0xE0AE = .ok (.skp 0) ∧ decodeWord 0x0FF0 = .ok .cls := by decide

theorem witness_UndecodedBitsSelectNothing : State.reset.config.shiftCopiesVy = false := rfl

theorem witness_IllegalWordsAreExactlyTheListed :
    (at200 0x8008).status = .running ∧ (at200 0x8008).fetch = .ok 0x8008 ∧
    decodeWord 0x8008 = .error (.unimplementedOpcode 0x8008) := ⟨rfl, by decide, by decide⟩

theorem witness_FetchIsBoundedAndBigEndian :
    ({ State.reset with pc := 0xFFE } : State).pc.toNat ≤ 0xFFE ∧
    ({ State.reset with pc := 0xFFF } : State).pc.toNat + 1 ≥ 4096 := by decide

/-- The fetch clause at 0xFFF, the handler's next state for JP and its fault for RET on an empty stack. -/
theorem witness_StepRunsDecodedInstruction :
    ({ State.reset with pc := 0xFFF } : State).pc.toNat + 1 ≥ 4096 ∧
    ({ State.reset with pc := 0xFFE } : State).pc.toNat + 1 < 4096 ∧
    (0x1ABC : Word) = (at200 0x1ABC).byteAt 0x200 ++ (at200 0x1ABC).byteAt 0x201 ∧
    decodeWord 0x1ABC = .ok (.jp 0xABC) ∧
    answersNext (exec (.jp 0xABC) { at200 0x1ABC with pc := (at200 0x1ABC).pc + 2, opcode := 0x1ABC }) = true ∧
    (0x00EE : Word) = (at200 0x00EE).byteAt 0x200 ++ (at200 0x00EE).byteAt 0x201 ∧ decodeWord 0x00EE = .ok .ret ∧
    exec .ret { at200 0x00EE with pc := (at200 0x00EE).pc + 2, opcode := 0x00EE } = .fault .stackUnderflow :=
  ⟨by decide, by decide, by decide, by decide, by decide, by decide, by decide, rfl⟩

theorem witness_TimerTickEndsEveryStep :
    (at200 0x1ABC).status = .running ∧ (at200 0x1ABC).fetch = .ok 0x1ABC ∧ decodeWord 0x1ABC = .ok (.jp 0xABC) ∧
    ∃ u, exec (.jp 0xABC) ((at200 0x1ABC).advance 0x1ABC) = .next u :=
  ⟨rfl, by decide, by decide, answersNext_exists (by decide)⟩

theorem witness_RunningStepAlwaysAnswersNext : State.reset.status = .running := rfl

theorem witness_FaultingStepCommitsNothing :
    (at200 0x8008).status = .running ∧
    step (at200 0x8008) = .next ((at200 0x8008).takeFault .unimplementedOpcode) ∧
    ((at200 0x8008).takeFault .unimplementedOpcode).status ≠ .running :=
  ⟨rfl, step_of_illegal (w := 0x8008) (e := .unimplementedOpcode 0x8008) rfl (by decide) (by decide), by decide⟩

theorem witness_HaltedBlockRefusesSteps :
    ({ State.reset with status := .halted .undefined } : State).status = .halted .undefined ∧
    (({ State.reset with status := .halted .undefined } : State).move .reset).status = .running ∧
    (({ State.reset with status := .halted .undefined } : State).move (.load [])).status = .running ∧
    (List.replicate 3584 (0 : Byte)).length ≤ 3584 :=
  ⟨rfl, rfl, rfl, by rw [List.length_replicate]⟩

theorem witness_ResetValues : State.reset = (regs [(3, 7)]).hostReset ∧ (79 < 80) ∧ (0x9F + 1 ≥ 0x50 + 80) := by
  exact ⟨rfl, by decide, by decide⟩

theorem witness_LoadPlacesProgram :
    (List.replicate 3584 (0 : Byte)).length ≤ 3584 ∧ 3583 < (List.replicate 3584 (0 : Byte)).length ∧
    (List.replicate 3585 (0 : Byte)).length > 3584 := by
  simp only [List.length_replicate]
  decide

theorem witness_KeypadIsWrittenByTheHostAlone : 15 < 16 ∧ ¬ 16 < 16 ∧ ∃ t, step (at200 0x00E0) = .next t :=
  ⟨by decide, by decide, answersNext_exists (by decide)⟩

theorem witness_EveryStepKeepsTheInvariant : State.reset.Inv ∧ ∃ t, step State.reset = .next t :=
  ⟨⟨rfl, by unfold PcBounded; decide, fun _ h => absurd h (Nat.not_lt_zero _)⟩, answersNext_exists (by decide)⟩

/-- A state that meets the invariant at its bounds: pc 0x10FE, a full stack of 0x1000, a byte listed at 0xFFF. -/
theorem witness_invariant_at_its_bounds :
    ({ State.reset with
        pc := 0x10FE, SP := 16, STACK := Vector.replicate 16 0x1000, mem := [(0x200, 1), (0xFFF, 2)] } : State).Inv :=
  ⟨by unfold MemCanonical; decide, by unfold PcBounded; decide, fun j _ => by revert j; decide⟩

theorem witness_EveryScheduleKeepsTheInvariant : State.reset.Inv := witness_EveryStepKeepsTheInvariant.1

/-- The premise, each writable bound and each clause that faults. -/
theorem witness_MemWriteSetsOneByte :
    MemCanonical { State.reset with mem := [(0x300, 1)] } ∧
    (0xFFF ≤ 0xFFF ∧ (State.reset.config.lowMemoryWrites = .allow ∨ 0x200 ≤ 0xFFF)) ∧
    (0x200 ≤ 0xFFF ∧ ((lowFault 0).config.lowMemoryWrites = .allow ∨ 0x200 ≤ 0x200)) ∧
    ¬ (0x1FF ≤ 0xFFF ∧ ((lowFault 0).config.lowMemoryWrites = .allow ∨ 0x200 ≤ 0x1FF)) ∧
    ¬ (0x1000 ≤ 0xFFF ∧ (State.reset.config.lowMemoryWrites = .allow ∨ 0x200 ≤ 0x1000)) := by
  refine ⟨?_, ?_, ?_, ?_, ?_⟩
  · unfold MemCanonical; decide
  all_goals decide

theorem witness_RetPopsTheReturnAddress :
    State.reset.SP = 0 ∧ ({ State.reset with SP := 1 } : State).SP.val = (0 : Fin 16).val + 1 ∧
    ({ State.reset with SP := 16 } : State).SP.val = (15 : Fin 16).val + 1 := by decide

theorem witness_CallPushesTheAdvancedPc :
    ({ State.reset with SP := 16 } : State).SP = 16 ∧ State.reset.SP.val = (0 : Fin 16).val ∧
    ({ State.reset with SP := 15 } : State).SP.val = (15 : Fin 16).val := by decide

theorem witness_SkipsOnImmediate : (regs [(15, 0xFF)]).reg 15 = 0xFF ∧ (regs [(15, 0xFF)]).reg 15 ≠ 0xFE := by decide

theorem witness_SkipsOnRegisters :
    (regs [(1, 7), (2, 7)]).reg 1 = (regs [(1, 7), (2, 7)]).reg 2 ∧ (regs [(1, 7), (2, 8)]).reg 1 ≠ (regs [(1, 7), (2, 8)]).reg 2 := by
  decide

theorem witness_JpOffsetAddsARegister :
    State.reset.config.jumpOffsetReg = .v0 ∧
    (withConfig { defaultConfig with jumpOffsetReg := .vx }).config.jumpOffsetReg = .vx := by decide

/-- A key index of 16 under fault, of 15, and of 16 under low_nibble; the key named pressed and not pressed. -/
theorem witness_SkipsOnKey :
    ((regs [(0, 16)]).reg 0).toNat > 15 ∧ State.reset.config.keyIndexPolicy = .fault ∧
    ((regs [(0, 15)]).reg 0).toNat ≤ 15 ∧ (15 : RegIdx).val = ((regs [(0, 15)]).reg 0).toNat % 16 ∧
    (withConfig { defaultConfig with keyIndexPolicy := .lowNibble }).config.keyIndexPolicy = .lowNibble ∧
    (0 : RegIdx).val = ((regs [(0, 16)]).reg 0).toNat % 16 ∧
    (State.reset.writeKey 15 true).KEY[(15 : RegIdx)] = true ∧ State.reset.KEY[(15 : RegIdx)] = false := by decide

/-- Add, Sub and the shifts share these: a conflict under fault, and none for want of VF or of the policy. -/
theorem witness_AddSetsCarry :
    ((15 : RegIdx) = 15 ∨ (0 : RegIdx) = 15) ∧ State.reset.config.vfConflict = .fault ∧
    ¬ (((0 : RegIdx) = 15 ∨ (14 : RegIdx) = 15) ∧ State.reset.config.vfConflict = .fault) ∧
    ¬ (((15 : RegIdx) = 15 ∨ (0 : RegIdx) = 15) ∧
      (withConfig { defaultConfig with vfConflict := .resultWins }).config.vfConflict = .fault) ∧
    ¬ (((15 : RegIdx) = 15 ∨ (0 : RegIdx) = 15) ∧
      (withConfig { defaultConfig with vfConflict := .flagWins }).config.vfConflict = .fault) := by decide

theorem witness_SubAndSubnSetNotBorrow :
    ((0 : RegIdx) = 15 ∨ (15 : RegIdx) = 15) ∧ State.reset.config.vfConflict = .fault ∧
    ¬ (((0 : RegIdx) = 15 ∨ (1 : RegIdx) = 15) ∧ State.reset.config.vfConflict = .fault) := by decide

/-- x = 0 and y = 15: no conflict by default, a conflict when Vy is copied. -/
theorem witness_ShiftsSetTheBitShiftedOut :
    (State.reset.config.shiftCopiesVy = false → State.reset.reg 0 = State.reset.reg 0 ∧ (False ↔ (0 : RegIdx) = 15)) ∧
    (State.reset.config.shiftCopiesVy = true →
      State.reset.reg 0 = State.reset.reg 15 ∧ (False ↔ (0 : RegIdx) = 15 ∨ (15 : RegIdx) = 15)) ∧
    ¬ (False ∧ State.reset.config.vfConflict = .fault) ∧
    ((withConfig { defaultConfig with shiftCopiesVy := true }).config.shiftCopiesVy = false →
      State.reset.reg 15 = State.reset.reg 0 ∧ (True ↔ (0 : RegIdx) = 15)) ∧
    ((withConfig { defaultConfig with shiftCopiesVy := true }).config.shiftCopiesVy = true →
      State.reset.reg 15 = State.reset.reg 15 ∧ (True ↔ (0 : RegIdx) = 15 ∨ (15 : RegIdx) = 15)) ∧
    (True ∧ (withConfig { defaultConfig with shiftCopiesVy := true }).config.vfConflict = .fault) := by decide

/-- The two faults, the legal ranges at their bound, a mask pixel that meets a lit pixel and one outside the mask. -/
theorem witness_DrwXorsTheSpriteMask :
    ((15 : RegIdx) = 15 ∨ (0 : RegIdx) = 15) ∧ State.reset.config.vfConflict = .fault ∧
    ¬ (((0 : RegIdx) = 15 ∨ (1 : RegIdx) = 15) ∧ State.reset.config.vfConflict = .fault) ∧
    (0 < (2 : Fin 16).val ∧ 4096 < ({ State.reset with I := 0xFFF } : State).I.toNat + (2 : Fin 16).val) ∧
    ((1 : Fin 16).val = 0 ∨ ({ State.reset with I := 0xFFF } : State).I.toNat + (1 : Fin 16).val ≤ 4096) ∧
    ((0 : Fin 16).val = 0 ∨ ({ State.reset with I := 0xFFFF } : State).I.toNat + (0 : Fin 16).val ≤ 4096) ∧
    (SpriteMask { State.reset with mem := [(0xFFF, 0x80)], I := 0xFFF, DISP := Display.toggle Display.clear 0 0 } 0 1 1 0 0 ∧
      Display.pixel (Display.toggle Display.clear 0 0) 0 0 = true) ∧
    ¬ SpriteMask State.reset 0 1 0 0 0 := by
  refine ⟨by decide, by decide, by decide, by decide, by decide, by decide, ⟨⟨0, by decide, 0, by decide, ?_⟩, by decide⟩, ?_⟩
  · decide
  · rintro ⟨row, h, -⟩
    exact absurd h (Nat.not_lt_zero row)

theorem witness_DrawingTwiceRestoresTheDisplay :
    (0 : RegIdx) ≠ 15 ∧ (1 : RegIdx) ≠ 15 ∧ ∃ t, exec (.drw 0 1 1) { State.reset with mem := [(0, 0xFF)] } = .next t :=
  ⟨by decide, by decide, answersNext_exists (by decide)⟩

theorem witness_ReadDtAndSetSt :
    (at200 0xFF07).status = .running ∧ (at200 0xFF07).fetch = .ok 0xFF07 ∧ decodeWord 0xFF07 = .ok (.ldVxDt 15) ∧
    (at200 0xF018).status = .running ∧ (at200 0xF018).fetch = .ok 0xF018 ∧ decodeWord 0xF018 = .ok (.ldStVx 0) :=
  ⟨rfl, by decide, by decide, rfl, by decide, by decide⟩

theorem witness_SetDtAndAddToI :
    State.reset.config.anomalyACompat = false ∧
    (withConfig { defaultConfig with anomalyACompat := true }).config.anomalyACompat = true := by decide

/-- Keys 7 and 9 pressed, key 15 alone pressed, and no key with the instruction at pc. -/
theorem witness_KeyWaitTakesLowestKeyOrRepeats :
    (((State.reset.writeKey 9 true).writeKey 7 true).KEY[(7 : RegIdx)] = true ∧
      ∀ j : RegIdx, j < 7 → ((State.reset.writeKey 9 true).writeKey 7 true).KEY[j] = false) ∧
    ((State.reset.writeKey 15 true).KEY[(15 : RegIdx)] = true ∧
      ∀ j : RegIdx, j < 15 → (State.reset.writeKey 15 true).KEY[j] = false) ∧
    (∀ k : RegIdx, (at200 0xF00A).KEY[k] = false) ∧ (at200 0xF00A).status = .running ∧
    (at200 0xF00A).fetch = .ok 0xF00A ∧ decodeWord 0xF00A = .ok (.ldVxK 0) :=
  ⟨by decide, by decide, by decide, rfl, by decide, by decide⟩

theorem witness_LdFPointsAtTheGlyph :
    (((regs [(0, 16)]).reg 0).toNat > 15 ∧ State.reset.config.fontDigitPolicy = .fault) ∧
    ((regs [(0, 15)]).reg 0).toNat ≤ 15 ∧
    (withConfig { defaultConfig with fontDigitPolicy := .unmasked }).config.fontDigitPolicy = .unmasked := by decide

/-- LdB, at the end of memory and at the low bound under both policies. -/
theorem witness_LdBStoresTheDecimalDigits :
    (MemCanonical (withI 0xFFE) ∧ (withI 0xFFE).I.toNat + 3 > 4096) ∧
    (MemCanonical (lowFault 0x1FF) ∧ (lowFault 0x1FF).config.lowMemoryWrites = .fault ∧
      (lowFault 0x1FF).I.toNat < 0x200) ∧
    (MemCanonical (withI 0xFFD) ∧ (withI 0xFFD).I.toNat + 3 ≤ 4096 ∧
      (withI 0xFFD).config.lowMemoryWrites = .allow) ∧
    (MemCanonical (lowFault 0x200) ∧ (lowFault 0x200).I.toNat + 3 ≤ 4096 ∧ 0x200 ≤ (lowFault 0x200).I.toNat) :=
  ⟨⟨rfl, by decide⟩, ⟨rfl, by decide⟩, ⟨rfl, by decide⟩, ⟨rfl, by decide⟩⟩

theorem witness_StoreBlockWritesV0ToVx :
    (MemCanonical (withI 0xFFF) ∧ (withI 0xFFF).I.toNat + (1 : RegIdx).val + 1 > 4096) ∧
    (MemCanonical (lowFault 0x1FF) ∧ (lowFault 0x1FF).config.lowMemoryWrites = .fault ∧
      (lowFault 0x1FF).I.toNat < 0x200) ∧
    (MemCanonical (withI 0xFF0) ∧ (withI 0xFF0).I.toNat + (15 : RegIdx).val + 1 ≤ 4096 ∧
      (withI 0xFF0).config.lowMemoryWrites = .allow ∧ (withI 0xFF0).config.loadStoreIncrementsI = false) ∧
    (MemCanonical (lowFault 0x200) ∧ (lowFault 0x200).I.toNat + (0 : RegIdx).val + 1 ≤ 4096 ∧
      0x200 ≤ (lowFault 0x200).I.toNat) ∧
    (15 : RegIdx) ≤ 15 ∧
    (withConfig { defaultConfig with loadStoreIncrementsI := true }).config.loadStoreIncrementsI = true :=
  ⟨⟨rfl, by decide⟩, ⟨rfl, by decide⟩, ⟨rfl, by decide⟩, ⟨rfl, by decide⟩, by decide, by decide⟩

theorem witness_LoadBlockReadsV0ToVx :
    (withI 0xFF1).I.toNat + (15 : RegIdx).val + 1 > 4096 ∧
    ((withI 0xFF0).I.toNat + (15 : RegIdx).val + 1 ≤ 4096 ∧ (withI 0xFF0).config.loadStoreIncrementsI = false) ∧
    (withConfig { defaultConfig with loadStoreIncrementsI := true }).config.loadStoreIncrementsI = true ∧
    MemCanonical (withI 0x300) ∧ ∃ t, exec (.ldMemVx 15) (withI 0x300) = .next t :=
  ⟨by decide, by decide, by decide, rfl, answersNext_exists (by decide)⟩

theorem witness_HandlerWritesOnlyWhatItsRuleNames :
    (∃ t, exec (.addReg 0 1) State.reset = .next t) ∧ (at200 0x8014).fetch = .ok 0x8014 ∧
    decodeWord 0x8014 = .ok (.addReg 0 1) ∧ ∃ t, step (at200 0x8014) = .next t ∧ t.status = .running := by
  refine ⟨answersNext_exists (by decide), by decide, by decide, ?_⟩
  rw [step_of_decoded (s := at200 0x8014) (w := 0x8014) (i := .addReg 0 1) rfl (by decide) (by decide)]
  exact ⟨_, rfl, rfl⟩

/-- Two different states no program can tell apart, running and halted. -/
theorem witness_StaleCellsAndScratchAreUnobservable :
    SameToPrograms State.reset { State.reset with STACK := Vector.replicate 16 0x300, opcode := 7 } ∧
    (∃ t, step State.reset = .next t) ∧
    SameToPrograms (State.reset.takeFault .undefined) { State.reset.takeFault .undefined with opcode := 7 } ∧
    step (State.reset.takeFault .undefined) = .refused (.halted .undefined) := by
  refine ⟨⟨rfl, rfl, rfl, rfl, fun j h => absurd h (Nat.not_lt_zero _), rfl, rfl, rfl, rfl, rfl, rfl, rfl, rfl⟩,
    answersNext_exists (by decide),
    ⟨rfl, rfl, rfl, rfl, fun j h => absurd h (Nat.not_lt_zero _), rfl, rfl, rfl, rfl, rfl, rfl, rfl, rfl⟩, rfl⟩

theorem witness_NoInstructionReadsTheSoundTimer :
    (∃ t, exec (.ldStVx 3) State.reset = .next t) ∧ exec .ret State.reset = .fault .stackUnderflow :=
  ⟨answersNext_exists (by decide), rfl⟩

/-- The idle loops of test vectors E8 and S3. -/
theorem witness_IdleLoopOnlyTicks :
    (at200 0x1200).IdleLoop ∧ (State.withFetchWord { State.reset with pc := 0xFFE } 16 0x1FFE).IdleLoop :=
  ⟨⟨rfl, by decide, by decide⟩, ⟨rfl, by decide, by decide⟩⟩

end Sys2Proof.Tests
end

section
/-!
The frame rule R38, instruction by instruction (spec/10_state.md R38): a handler writes only what its rule names, and a
step that stays Running adds pc, the timers and the opcode scratch.
-/

namespace Sys2Proof.Machine

variable {s t : State}

/-! ### The states a push and a pop answer -/

/-- What CALL's push leaves where it does not overflow (R81). -/
def State.pushed (s : State) (h : s.SP.val < 16) : State :=
  { s with STACK := s.STACK.set s.SP.val s.pc h, SP := ⟨s.SP.val + 1, by omega⟩ }

/-- What RET's pop leaves where it does not underflow (R79). -/
def State.popped (s : State) (h : 0 < s.SP.val) : State :=
  { s with SP := ⟨s.SP.val - 1, by omega⟩, pc := s.STACK[s.SP.val - 1] }

theorem push_eq_pushed (k : State → Out) (h : s.SP.val < 16) : s.push k = k (s.pushed h) := push_of_room k h

theorem pop_eq_popped (h : 0 < s.SP.val) : s.pop = .next (s.popped h) := pop_of_pushed h

/-- A stack cell after a push. -/
theorem pushed_stack (h : s.SP.val < 16) (j : Fin 16) :
    (s.pushed h).STACK[j] = if s.SP.val = j.val then s.pc else s.STACK[j] := Vector.getElem_set h j.isLt

/-- A CALL that answers next had room, and jumps after the push. -/
theorem execCall_eq_next {nnn : Addr} (h : execCall nnn s = .next t) :
    ∃ hSP : s.SP.val < 16, (s.pushed hSP).setPc (zextAddr nnn) = t := by
  unfold execCall at h
  by_cases hSP : s.SP.val < 16
  · rw [push_eq_pushed _ hSP] at h
    exact ⟨hSP, Host.Outcome.next.inj h⟩
  · rw [push_of_full _ (by omega)] at h
    cases h

/-- A RET that answers next had something to pop. -/
theorem execRet_eq_next (h : execRet s = .next t) : ∃ hSP : 0 < s.SP.val, s.popped hSP = t := by
  unfold execRet at h
  rcases Nat.eq_zero_or_pos s.SP.val with h0 | h0
  · rw [pop_of_empty h0] at h
    cases h
  · rw [pop_eq_popped h0] at h
    exact ⟨h0, Host.Outcome.next.inj h⟩

/-! ### The operations without a frame in Laws/Frame.lean -/

theorem changesOnly_draws (s : State) (n : Nat) : ChangesOnly (fun p => p = .draws) s { s with draws := n } := by
  intro p hp
  cases p
  case draws => exact absurd rfl hp
  all_goals rfl

theorem changesOnly_rewind (s : State) : ChangesOnly (fun p => p = .pc) s s.rewind := changesOnly_setPc s _

/-- A new display changes the pixels in which it differs. -/
theorem changesOnly_display (s : State) (d : Display) :
    ChangesOnly (fun p => ∃ r c, p = .pixel r c ∧ Display.pixel d r c ≠ Display.pixel s.DISP r c) s
      { s with DISP := d } := by
  intro p hp
  cases p
  case pixel r c => exact Classical.not_not.1 fun hne => hp ⟨r, c, rfl, hne⟩
  all_goals rfl

theorem changesOnly_popped (s : State) (h : 0 < s.SP.val) :
    ChangesOnly (fun p => p = .SP ∨ p = .pc) s (s.popped h) := by
  intro p hp
  cases p
  case SP => exact absurd (.inl rfl) hp
  case pc => exact absurd (.inr rfl) hp
  all_goals rfl

theorem changesOnly_pushed (s : State) (h : s.SP.val < 16) :
    ChangesOnly (fun p => p = .SP ∨ ∃ j : Fin 16, j.val = s.SP.val ∧ p = .stack j) s (s.pushed h) := by
  intro p hp
  cases p
  case SP => exact absurd (.inl rfl) hp
  case stack j =>
    have hj : s.SP.val ≠ j.val := fun e => hp (.inr ⟨j, e.symm, rfl⟩)
    exact Vector.getElem_set_ne h j.isLt hj
  all_goals rfl

theorem changesOnly_storeBytes {a : Nat} {vs : List Byte} (h : storeBytes s a vs = .next t) :
    ChangesOnly (fun p => ∃ k < vs.length, p = .byte (a + k)) s t := by
  obtain ⟨-, rfl⟩ := storeBytes_eq_next.1 h
  exact changesOnly_copyIn s a vs

theorem changesOnly_flagOp {ops : List RegIdx} {x : RegIdx} {f : Flagged} (h : flagOp s ops x f = .next t) :
    ChangesOnly (fun p => p = .reg x ∨ p = .reg vf) s t :=
  changesOnly_of_next (conflictCheck_eq_next.1 h).2 (changesOnly_writeResultAndFlag s x _ _)

theorem regBlock_length (s : State) (x : RegIdx) : (s.regBlock x).length = x.val + 1 := by
  simp [State.regBlock]

/-! ### The three handlers that combine several operations -/

theorem execCall_changesOnly {nnn : Addr} (h : execCall nnn s = .next t) :
    ChangesOnly (writes s (.call nnn)) s t := by
  obtain ⟨hSP, rfl⟩ := execCall_eq_next h
  refine changesOnly_mono (changesOnly_trans (changesOnly_pushed s hSP) (changesOnly_setPc _ _)) ?_
  rintro p ((hp | hp) | hp)
  · exact .inl hp
  · exact .inr (.inr hp)
  · exact .inr (.inl hp)

theorem execDrw_changesOnly {x y : RegIdx} {n : Fin 16} (h : execDrw x y n s = .next t) :
    ChangesOnly (writes s (.drw x y n)) s t := by
  obtain ⟨-, h⟩ := conflictCheck_eq_next.1 h
  obtain ⟨-, h⟩ := checkRange_eq_next.1 h
  refine changesOnly_of_next h (changesOnly_mono
    (changesOnly_trans (changesOnly_display s _) (changesOnly_setReg _ _ _)) ?_)
  rintro p (⟨r, c, rfl, hne⟩ | hp)
  · by_contra hout
    refine hne (pixel_blit_outside _ _ _ _ _ (by omega) r c ?_)
    rintro ⟨row, hrow, col, hcol, rfl, rfl⟩
    exact hout (.inr ⟨row, hrow, col, hcol, rfl⟩)
  · exact .inl hp

theorem execLdMemVx_changesOnly {x : RegIdx} (h : execLdMemVx x s = .next t) :
    ChangesOnly (writes s (.ldMemVx x)) s t := by
  obtain ⟨-, h⟩ := checkRange_eq_next.1 h
  split at h
  case h_1 u hu =>
    have hc : u.config = s.config := changesOnly_storeBytes hu .config (by simp)
    refine changesOnly_of_next h (changesOnly_mono
      (changesOnly_trans (changesOnly_storeBytes hu) (changesOnly_advanceI u x)) ?_)
    rintro p (⟨k, hk, hp⟩ | ⟨hp, hinc⟩)
    · rw [regBlock_length] at hk
      exact .inr ⟨k, by omega, hp⟩
    · exact .inl ⟨hp, hc ▸ hinc⟩
  all_goals cases h

/-! ### The frame of every handler and of every step -/

/-- A handler writes only what its rule names (R38). -/
theorem exec_changesOnly {i : Instr} (h : exec i s = .next t) : ChangesOnly (writes s i) s t := by
  cases i
  case cls =>
    exact changesOnly_of_next h (changesOnly_mono (changesOnly_display s _) fun p ⟨r, c, hp, _⟩ => ⟨r, c, hp⟩)
  case ret =>
    obtain ⟨hSP, rfl⟩ := execRet_eq_next h
    exact changesOnly_popped s hSP
  case call => exact execCall_changesOnly h
  case jp | jpOffset => exact changesOnly_of_next h (changesOnly_setPc s _)
  case seImm | sneImm | seReg | sneReg => exact changesOnly_of_next h (changesOnly_skipIf s _)
  case skp =>
    rw [exec, execSkp, withKeyIndex_eq_next] at h
    exact changesOnly_of_next h.2 (changesOnly_skipIf s _)
  case sknp =>
    rw [exec, execSknp, withKeyIndex_eq_next] at h
    exact changesOnly_of_next h.2 (changesOnly_skipIf s _)
  case ldImm | addImm | ldReg | orReg | andReg | xorReg | ldVxDt =>
    exact changesOnly_of_next h (changesOnly_setReg s _ _)
  case addReg | subReg | subnReg | shr | shl => exact changesOnly_flagOp h
  case rnd => exact changesOnly_of_next h (changesOnly_trans (changesOnly_setReg s _ _) (changesOnly_draws _ _))
  case drw => exact execDrw_changesOnly h
  case ldI | addIVx => exact changesOnly_of_next h (changesOnly_setI s _)
  case ldFVx =>
    rw [exec, execLdFVx, withFontDigit_eq_next] at h
    exact changesOnly_of_next h.2 (changesOnly_setI s _)
  case ldDtVx => exact changesOnly_of_next h (changesOnly_setDT s _)
  case ldStVx => exact changesOnly_of_next h (changesOnly_setST s _)
  case ldVxK =>
    simp only [exec, execLdVxK] at h
    split at h
    · exact changesOnly_of_next h (changesOnly_mono (changesOnly_setReg s _ _) fun _ => .inl)
    · exact changesOnly_of_next h (changesOnly_mono (changesOnly_rewind s) fun _ => .inr)
  case ldBVx => exact changesOnly_storeBytes (checkRange_eq_next.1 h).2
  case ldMemVx => exact execLdMemVx_changesOnly h
  case ldVxMem x =>
    exact changesOnly_of_next (checkRange_eq_next.1 h).2 (changesOnly_mono
      (changesOnly_trans (changesOnly_loadRegs s x _) (changesOnly_advanceI _ x)) fun p => Or.symm)

/-- What a rule names does not depend on pc and the scratch, which are all the advance changes. -/
theorem writes_advance (s : State) (w : Word) (i : Instr) : writes (s.advance w) i = writes s i := by
  cases i <;> rfl

/-- The whole step of a handler that answered: advance, handler, tick. -/
theorem changesOnly_cycle {w : Word} {i : Instr} (h : exec i (s.advance w) = .next t) :
    ChangesOnly (fun p => writes s i p ∨ p = .pc ∨ p = .DT ∨ p = .ST ∨ p = .opcode) s t.tick := by
  have hexec := writes_advance s w i ▸ exec_changesOnly h
  refine changesOnly_mono
    (changesOnly_trans (changesOnly_trans (changesOnly_advance s w) hexec) (changesOnly_tick t)) ?_
  rintro p (((hp | hp) | hp) | (hp | hp)) <;> simp [hp]

/-- Settles O45: the frame of every handler, then the frame of the cycle around it. -/
theorem handlerWritesOnlyWhatItsRuleNames : Obligations.HandlerWritesOnlyWhatItsRuleNames := by
  refine ⟨fun _ _ _ => exec_changesOnly, fun s t w i hw hi hstep hrun => ?_⟩
  obtain ⟨-, ⟨k, rfl⟩ | ⟨w', i', u, hw', hi', hu, rfl⟩⟩ := step_cases hstep
  · cases hrun
  · obtain rfl : w = w' := Except.ok.inj (hw.symm.trans hw')
    obtain rfl : i = i' := Except.ok.inj (hi.symm.trans hi')
    exact changesOnly_cycle hu

end Sys2Proof.Machine
end

section
/-!
Noninterference (spec/10_state.md R28, R30, R34, R39). No handler reads a stale stack cell, the opcode scratch or the
sound timer: from two states that differ in nothing else, every handler gives the same answer. That is proved once, for every
relation between states that the edits of a handler keep, and used for the two relations the statements speak of.
-/

namespace Sys2Proof.Machine

variable {s s' t : State}

/-- A run of stores, whole: the bytes copied in, or OutOfBounds. -/
theorem storeBytes_eq_ite (s : State) (a : Nat) (vs : List Byte) :
    storeBytes s a vs =
      if vs = [] ∨ (a + vs.length ≤ 4096 ∧ (s.config.lowMemoryWrites = .allow ∨ 0x200 ≤ a)) then
        .next { s with mem := Memory.copyIn s.config.font s.mem a vs }
      else .fault .outOfBounds := by
  split
  · next h => exact storeBytes_eq_next.2 ⟨h, rfl⟩
  · next h => exact (storeBytes_cases s a vs).resolve_left fun ⟨_, ht⟩ => h (storeBytes_eq_next.1 ht).1

/-! ### Answers equal up to a relation -/

/-- Two answers of the same kind, with the same reason or with related next states. -/
inductive Out.Related (R : State → State → Prop) : Out → Out → Prop where
  | next {t t' : State} (h : R t t') : Out.Related R (.next t) (.next t')
  | fault (k : Fault) : Out.Related R (.fault k) (.fault k)
  | refused (r : Refusal) : Out.Related R (.refused r) (.refused r)

section Related

variable {R : State → State → Prop} {o : Out}

theorem Out.Related.of_next (h : Out.Related R (.next t) o) : ∃ t', o = .next t' ∧ R t t' := by
  cases h with
  | next h => exact ⟨_, rfl, h⟩

theorem Out.Related.of_fault {k : Fault} (h : Out.Related R (.fault k) o) : o = .fault k := by
  cases h
  rfl

theorem Out.Related.of_refused {r : Refusal} (h : Out.Related R (.refused r) o) : o = .refused r := by
  cases h
  rfl

end Related

section Branches

variable {α : Type} {r : α → α → Prop} {c : Prop} [Decidable c]

/-- Two conditionals with one condition are related if their branches are. -/
theorem related_ite {a a' b b' : α} (h₁ : c → r a a') (h₂ : ¬c → r b b') :
    r (if c then a else b) (if c then a' else b') := by
  split
  · next hc => exact h₁ hc
  · next hc => exact h₂ hc

/-- The same where the branches use the condition. -/
theorem related_dite {a a' : c → α} {b b' : ¬c → α} (h₁ : ∀ hc, r (a hc) (a' hc)) (h₂ : ∀ hc, r (b hc) (b' hc)) :
    r (if hc : c then a hc else b hc) (if hc : c then a' hc else b' hc) := by
  split
  · exact h₁ _
  · exact h₂ _

end Branches

/-! ### Relations the edits of a handler keep -/

/-- A relation between states that agree on everything a handler may read, kept when both states are given the same new
value in a field, store the same bytes, or both push or pop. -/
structure KeptByEdits (R : State → State → Prop) : Prop where
  agree {s s' : State} : R s s' → ∃ stack scratch sound, s' = { s with STACK := stack, opcode := scratch, ST := sound }
  V {s s' : State} (v : Vector Byte 16) : R s s' → R { s with V := v } { s' with V := v }
  I {s s' : State} (a : Word) : R s s' → R { s with I := a } { s' with I := a }
  pc {s s' : State} (a : Word) : R s s' → R { s with pc := a } { s' with pc := a }
  DT {s s' : State} (v : Byte) : R s s' → R { s with DT := v } { s' with DT := v }
  ST {s s' : State} (v : Byte) : R s s' → R { s with ST := v } { s' with ST := v }
  DISP {s s' : State} (d : Display) : R s s' → R { s with DISP := d } { s' with DISP := d }
  draws {s s' : State} (n : Nat) : R s s' → R { s with draws := n } { s' with draws := n }
  store {s s' : State} {a : Nat} {vs : List Byte} (hb : vs = [] ∨ a + vs.length ≤ 4096) : R s s' →
    R { s with mem := Memory.copyIn s.config.font s.mem a vs } { s' with mem := Memory.copyIn s'.config.font s'.mem a vs }
  push {s s' : State} : R s s' → ∀ (h : s.SP.val < 16) (h' : s'.SP.val < 16), R (s.pushed h) (s'.pushed h')
  pop {s s' : State} : R s s' → ∀ (h : 0 < s.SP.val) (h' : 0 < s'.SP.val), R (s.popped h) (s'.popped h')

namespace KeptByEdits

variable {R : State → State → Prop} (hR : KeptByEdits R)
include hR

theorem skipIf_keeps (c : Bool) (h : R s s') : R (s.skipIf c) (s'.skipIf c) := by
  obtain ⟨_, _, _, rfl⟩ := hR.agree h
  cases c
  · exact h
  · exact hR.pc _ h

theorem advanceI_keeps (x : RegIdx) (h : R s s') : R (s.advanceI x) (s'.advanceI x) := by
  obtain ⟨_, _, _, rfl⟩ := hR.agree h
  exact related_ite (fun _ => hR.I _ h) (fun _ => h)

theorem writeResultAndFlag_keeps (x : RegIdx) (b : Byte) (f : Bool) (h : R s s') :
    R (s.writeResultAndFlag x b f) (s'.writeResultAndFlag x b f) := by
  obtain ⟨_, _, _, rfl⟩ := hR.agree h
  exact related_ite (fun _ => hR.V _ h) (fun _ => hR.V _ (hR.V _ h))

theorem flagOp_related (ops : List RegIdx) (x : RegIdx) (f : Flagged) (h : R s s') :
    Out.Related R (flagOp s ops x f) (flagOp s' ops x f) := by
  have hnext := hR.writeResultAndFlag_keeps x f.result f.flag h
  obtain ⟨_, _, _, rfl⟩ := hR.agree h
  exact related_ite (fun _ => .fault _) (fun _ => .next hnext)

theorem storeBytes_related (a : Nat) (vs : List Byte) (h : R s s') :
    Out.Related R (storeBytes s a vs) (storeBytes s' a vs) := by
  obtain ⟨_, _, _, rfl⟩ := hR.agree h
  rw [storeBytes_eq_ite s, storeBytes_eq_ite]
  exact related_ite (fun hok => .next (hR.store (hok.imp_right And.left) h)) (fun _ => .fault _)

theorem execLdVxK_related (x : RegIdx) (h : R s s') : Out.Related R (execLdVxK x s) (execLdVxK x s') := by
  obtain ⟨_, _, _, rfl⟩ := hR.agree h
  unfold execLdVxK
  dsimp only
  cases lowestKey s.KEY with
  | some k => exact .next (hR.V _ h)
  | none => exact .next (hR.pc _ h)

theorem execLdMemVx_related (x : RegIdx) (h : R s s') : Out.Related R (execLdMemVx x s) (execLdMemVx x s') := by
  have hstore := hR.storeBytes_related s.I.toNat (s.regBlock x) h
  obtain ⟨hI, hblock⟩ : s'.I = s.I ∧ s'.regBlock x = s.regBlock x := by
    obtain ⟨_, _, _, rfl⟩ := hR.agree h
    exact ⟨rfl, rfl⟩
  unfold execLdMemVx
  rw [hI, hblock]
  refine related_ite (fun _ => ?_) (fun _ => .fault _)
  generalize storeBytes s _ _ = o, storeBytes s' _ _ = o' at hstore ⊢
  cases hstore with
  | next hnext => exact .next (hR.advanceI_keeps _ hnext)
  | fault k => exact .fault k
  | refused r => exact .refused r

/-- Every handler gives related answers to related states. -/
theorem exec_related (i : Instr) (h : R s s') : Out.Related R (exec i s) (exec i s') := by
  obtain ⟨stack, scratch, sound, rfl⟩ := hR.agree h
  cases i
  case cls => exact .next (hR.DISP _ h)
  case ret => exact related_dite (fun hSP => .next (hR.pop h hSP hSP)) (fun _ => .fault _)
  case call => exact related_dite (fun hSP => .next (hR.pc _ (hR.push h hSP hSP))) (fun _ => .fault _)
  case jp | jpOffset => exact .next (hR.pc _ h)
  case seImm | sneImm | seReg | sneReg => exact .next (hR.skipIf_keeps _ h)
  case skp | sknp => exact related_ite (fun _ => .fault _) (fun _ => .next (hR.skipIf_keeps _ h))
  case ldImm | addImm | ldReg | orReg | andReg | xorReg | ldVxDt => exact .next (hR.V _ h)
  case addReg | subReg | subnReg | shr | shl => exact hR.flagOp_related _ _ _ h
  case rnd => exact .next (hR.draws _ (hR.V _ h))
  case drw =>
    exact related_ite (fun _ => .fault _)
      (fun _ => related_ite (fun _ => .next (hR.V _ (hR.DISP _ h))) (fun _ => .fault _))
  case ldI | addIVx => exact .next (hR.I _ h)
  case ldFVx => exact related_ite (fun _ => .fault _) (fun _ => .next (hR.I _ h))
  case ldDtVx => exact .next (hR.DT _ h)
  case ldStVx => exact .next (hR.ST _ h)
  case ldVxK => exact hR.execLdVxK_related _ h
  case ldBVx => exact related_ite (fun _ => hR.storeBytes_related _ _ h) (fun _ => .fault _)
  case ldMemVx => exact hR.execLdMemVx_related _ h
  case ldVxMem => exact related_ite (fun _ => .next (hR.advanceI_keeps _ (hR.V _ h))) (fun _ => .fault _)

end KeptByEdits

/-! ### The sound timer (R30) -/

/-- The two states differ at most in the sound timer. -/
def SameButSound (s s' : State) : Prop := ∃ v, s' = { s with ST := v }

theorem sameButSound_keptByEdits : KeptByEdits SameButSound where
  agree := by rintro s _ ⟨v, rfl⟩; exact ⟨_, _, v, rfl⟩
  V _ := by rintro ⟨v, rfl⟩; exact ⟨v, rfl⟩
  I _ := by rintro ⟨v, rfl⟩; exact ⟨v, rfl⟩
  pc _ := by rintro ⟨v, rfl⟩; exact ⟨v, rfl⟩
  DT _ := by rintro ⟨v, rfl⟩; exact ⟨v, rfl⟩
  ST v := by rintro ⟨_, rfl⟩; exact ⟨v, rfl⟩
  DISP _ := by rintro ⟨v, rfl⟩; exact ⟨v, rfl⟩
  draws _ := by rintro ⟨v, rfl⟩; exact ⟨v, rfl⟩
  store _ := by rintro ⟨v, rfl⟩; exact ⟨v, rfl⟩
  push := by rintro s _ ⟨v, rfl⟩ _ _; exact ⟨v, rfl⟩
  pop := by rintro s _ ⟨v, rfl⟩ _ _; exact ⟨v, rfl⟩

/-- Settles O47: no handler tells two states apart that differ in the sound timer alone. -/
theorem noInstructionReadsTheSoundTimer : Obligations.NoInstructionReadsTheSoundTimer := by
  intro i s v
  have hrel := sameButSound_keptByEdits.exec_related i (s := s) ⟨v, rfl⟩
  refine ⟨fun t ht => ?_, fun k hk => (hk ▸ hrel).of_fault⟩
  obtain ⟨_, ht', w, rfl⟩ := (ht ▸ hrel).of_next
  exact ⟨_, ht', rfl⟩

/-! ### Stale stack cells and the opcode scratch (R28, R34, R39) -/

/-- A push fills the first stale cell of both states with the same value (R81). -/
theorem pushed_sameToPrograms (h : SameToPrograms s s') (hSP : s.SP.val < 16) (hSP' : s'.SP.val < 16) :
    SameToPrograms (s.pushed hSP) (s'.pushed hSP') :=
  { h with
    SP := by simp [State.pushed, h.SP]
    stackBelow := by
      intro j hj
      rw [pushed_stack, pushed_stack, h.SP, h.pc]
      refine related_ite (fun _ => rfl) (fun hne => h.stackBelow j ?_)
      exact Nat.lt_of_le_of_ne (Nat.le_of_lt_succ hj) (Ne.symm hne) }

/-- A pop reads a cell below SP, where the two states agree (R79). -/
theorem popped_sameToPrograms (h : SameToPrograms s s') (hSP : 0 < s.SP.val) (hSP' : 0 < s'.SP.val) :
    SameToPrograms (s.popped hSP) (s'.popped hSP') :=
  { h with
    pc := by
      have htop := h.stackBelow ⟨s.SP.val - 1, by omega⟩ (Nat.sub_lt hSP Nat.one_pos)
      simpa [State.popped, h.SP] using htop
    SP := by simp [State.popped, h.SP]
    stackBelow := fun j hj => h.stackBelow j (Nat.lt_of_lt_of_le hj (Nat.sub_le _ _)) }

theorem sameToPrograms_keptByEdits : KeptByEdits SameToPrograms where
  agree {s s'} h := by
    obtain ⟨hV, hI, hpc, hSP, -, hDT, -, hKEY, hDISP, hmem, hstatus, hconfig, hdraws⟩ := h
    refine ⟨s'.STACK, s'.opcode, s'.ST, ?_⟩
    rw [← hV, ← hI, ← hpc, ← hSP, ← hDT, ← hKEY, ← hDISP, ← hmem, ← hstatus, ← hconfig, ← hdraws]
  V _ h := { h with V := rfl }
  I _ h := { h with I := rfl }
  pc _ h := { h with pc := rfl }
  DT _ h := { h with DT := rfl }
  ST _ h := { h with ST := rfl }
  DISP _ h := { h with DISP := rfl }
  draws _ h := { h with draws := rfl }
  store _ h := { h with mem := by simp only [h.config, h.mem] }
  push := pushed_sameToPrograms
  pop := popped_sameToPrograms

/-- The fetch reads pc and memory alone. -/
theorem fetch_sameToPrograms (h : SameToPrograms s s') : s'.fetch = s.fetch := by
  simp only [State.fetch, State.fetchWord, State.byteAt, h.pc, h.mem, h.config]

theorem advance_sameToPrograms (h : SameToPrograms s s') (w : Word) : SameToPrograms (s.advance w) (s'.advance w) :=
  { h with pc := by simp [h.pc] }

theorem tick_sameToPrograms (h : SameToPrograms s s') : SameToPrograms s.tick s'.tick :=
  { h with
    DT := by simp [h.DT]
    ST := by simp [h.ST] }

theorem takeFault_sameToPrograms (h : SameToPrograms s s') (k : Fault) :
    SameToPrograms (s.takeFault k) (s'.takeFault k) :=
  { h with status := rfl }

theorem finishStep_related (h : SameToPrograms s s') {o o' : Out} (ho : Out.Related SameToPrograms o o') :
    Out.Related SameToPrograms (finishStep s o) (finishStep s' o') := by
  cases ho with
  | next ht => exact .next (tick_sameToPrograms ht)
  | fault k => exact .next (takeFault_sameToPrograms h k)
  | refused r => exact .refused r

/-- Two states no program can tell apart take the same step. -/
theorem step_related (h : SameToPrograms s s') : Out.Related SameToPrograms (step s) (step s') := by
  have hf := fetch_sameToPrograms h
  cases hs : s.status with
  | halted k =>
    rw [step_of_halted hs, step_of_halted (h.status.trans hs)]
    exact .refused _
  | running =>
    have hs' := h.status.trans hs
    cases hw : s.fetch with
    | error k =>
      rw [step_of_fetch_error hs hw, step_of_fetch_error hs' (hf.trans hw)]
      exact .next (takeFault_sameToPrograms h k)
    | ok w =>
      cases hd : decodeWord w with
      | error e =>
        rw [step_of_illegal hs hw hd, step_of_illegal hs' (hf.trans hw) hd]
        exact .next (takeFault_sameToPrograms h _)
      | ok i =>
        rw [step_of_decoded hs hw hd, step_of_decoded hs' (hf.trans hw) hd]
        exact finishStep_related h (sameToPrograms_keptByEdits.exec_related i (advance_sameToPrograms h w))

/-- Settles O46: the step relates the two states' answers. -/
theorem staleCellsAndScratchAreUnobservable : Obligations.StaleCellsAndScratchAreUnobservable := by
  intro s s' h
  have hstep := step_related h
  exact ⟨fun t ht => (ht ▸ hstep).of_next, fun r hr => (hr ▸ hstep).of_refused⟩

end Sys2Proof.Machine
end

section
/-!
The invariant of the block (spec/10_state.md R25, R35, R37; log entries 1, 4 and 8): reset meets it, every step keeps it
and so does every schedule; and no schedule changes the configuration.
-/

namespace Sys2Proof.Machine

variable {s t : State}

/-! ### Schedules -/

/-- A step request leaves the state as it is or answers the next state of a step (R122). -/
theorem requestStep_cases (s : State) : s.requestStep = s ∨ step s = .next s.requestStep := by
  unfold State.requestStep
  split
  · next h => exact .inr h
  · exact .inl rfl
  · exact .inl rfl

/-- What every move keeps, every schedule keeps. -/
theorem moves_induction {P : State → Prop} (hmove : ∀ s m, P s → P (s.move m)) (ms : List HostMove) (hs : P s) :
    P (s.moves ms) := by
  induction ms generalizing s with
  | nil => exact hs
  | cons m ms ih => exact ih (hmove s m hs)

/-! ### The configuration (R35) -/

theorem exec_config {i : Instr} (h : exec i s = .next t) : t.config = s.config :=
  exec_changesOnly h .config (by cases i <;> simp [writes])

theorem step_config (h : step s = .next t) : t.config = s.config := by
  obtain ⟨-, ⟨k, rfl⟩ | ⟨w, i, u, -, -, hu, rfl⟩⟩ := step_cases h
  · rfl
  · rw [tick_config, exec_config hu, advance_config]

theorem writeKey_eq (s : State) (k : Nat) (pressed : Bool) :
    s.writeKey k pressed = { s with KEY := (s.writeKey k pressed).KEY } := by
  unfold State.writeKey
  split <;> rfl

theorem move_config (s : State) (m : HostMove) : (s.move m).config = s.config := by
  cases m with
  | step =>
    rcases requestStep_cases s with h | h
    · exact congrArg State.config h
    · exact step_config h
  | key k pressed => rw [State.move, writeKey_eq]
  | load bytes =>
    simp only [State.move, State.loadProgram]
    split <;> rfl
  | reset => rfl

/-- Settles O16, by induction on the schedule. -/
theorem configurationNeverChanges : Obligations.ConfigurationNeverChanges :=
  fun s ms => moves_induction (P := fun t => t.config = s.config) (fun t m ht => (move_config t m).trans ht) ms rfl

/-! ### Memory (log entry 4) -/

/-- Canonical memory as a relation of a state to itself, which a handler's edits keep. -/
def SameAndCanonical (s s' : State) : Prop := s' = s ∧ MemCanonical s

theorem sameAndCanonical_keptByEdits : KeptByEdits SameAndCanonical where
  agree := by rintro s _ ⟨rfl, _⟩; exact ⟨_, _, _, rfl⟩
  V _ := by rintro ⟨rfl, h⟩; exact ⟨rfl, h⟩
  I _ := by rintro ⟨rfl, h⟩; exact ⟨rfl, h⟩
  pc _ := by rintro ⟨rfl, h⟩; exact ⟨rfl, h⟩
  DT _ := by rintro ⟨rfl, h⟩; exact ⟨rfl, h⟩
  ST _ := by rintro ⟨rfl, h⟩; exact ⟨rfl, h⟩
  DISP _ := by rintro ⟨rfl, h⟩; exact ⟨rfl, h⟩
  draws _ := by rintro ⟨rfl, h⟩; exact ⟨rfl, h⟩
  store hb := by
    rintro ⟨rfl, h⟩
    refine ⟨rfl, ?_⟩
    rcases hb with rfl | hb
    · exact h
    · exact wf_copyIn h _ _ hb
  push := by rintro s _ ⟨rfl, h⟩ _ _; exact ⟨rfl, h⟩
  pop := by rintro s _ ⟨rfl, h⟩ _ _; exact ⟨rfl, h⟩

theorem exec_memCanonical {i : Instr} (h : exec i s = .next t) (hs : MemCanonical s) : MemCanonical t := by
  have hrel := sameAndCanonical_keptByEdits.exec_related i ⟨rfl, hs⟩
  rw [h] at hrel
  obtain ⟨_, _, _, ht⟩ := hrel.of_next
  exact ht

/-! ### The program counter and the stack (R25) -/

theorem zextAddr_toNat (nnn : Addr) : (zextAddr nnn).toNat = nnn.toNat := by
  have := nnn.isLt
  simp [zextAddr]
  omega

theorem zextByte_toNat (b : Byte) : (zextByte b).toNat = b.toNat := by
  have := b.isLt
  simp [zextByte]
  omega

/-- A jump lands inside the first 4096 addresses. -/
theorem pcBounded_setPc_zextAddr (s : State) (nnn : Addr) : PcBounded (s.setPc (zextAddr nnn)) := by
  have hnnn := nnn.isLt
  simp only [PcBounded, setPc_pc, zextAddr_toNat]
  omega

/-- A jump with an offset lands at most at 0xFFF + 0xFF (R86). -/
theorem pcBounded_setPc_offset (s : State) (nnn : Addr) (b : Byte) :
    PcBounded (s.setPc (zextAddr nnn + zextByte b)) := by
  have hnnn := nnn.isLt
  have hb := b.isLt
  simp only [PcBounded, setPc_pc, BitVec.toNat_add, zextAddr_toNat, zextByte_toNat]
  omega

theorem pcBounded_skipIf (h : s.pc.toNat ≤ 0x1000) (c : Bool) : PcBounded (s.skipIf c) := by
  cases c
  · rw [skipIf_false]
    exact Nat.le_trans h (by decide)
  · have htwo : (2 : Word).toNat = 2 := rfl
    simp only [PcBounded, skipIf_true, skip_pc, BitVec.toNat_add, htwo]
    omega

/-- The rewind goes back to the waiting instruction (R113). -/
theorem pcBounded_rewind (hlo : 2 ≤ s.pc.toNat) (hhi : s.pc.toNat ≤ 0x1000) : PcBounded s.rewind := by
  have htwo : (2 : Word).toNat = 2 := rfl
  simp only [PcBounded, rewind_pc, BitVec.toNat_sub, htwo]
  omega

theorem pcBounded_popped (hs : StackBounded s) (hSP : 0 < s.SP.val) : PcBounded (s.popped hSP) :=
  Nat.le_trans (hs ⟨s.SP.val - 1, by omega⟩ (Nat.sub_lt hSP Nat.one_pos)) (by decide)

/-- From an advanced pc every handler leaves pc in its bound: it writes a target of R79 to R88 or R113, or nothing. -/
theorem exec_pcBounded {i : Instr} (h : exec i s = .next t) (hlo : 2 ≤ s.pc.toNat) (hhi : s.pc.toNat ≤ 0x1000)
    (hs : StackBounded s) : PcBounded t := by
  have hkept (hpc : t.pc = s.pc) : PcBounded t := by
    rw [PcBounded, hpc]
    omega
  cases i
  case ret =>
    obtain ⟨hSP, rfl⟩ := execRet_eq_next h
    exact pcBounded_popped hs hSP
  case call =>
    obtain ⟨hSP, rfl⟩ := execCall_eq_next h
    exact pcBounded_setPc_zextAddr _ _
  case jp => cases h; exact pcBounded_setPc_zextAddr s _
  case jpOffset => cases h; exact pcBounded_setPc_offset s _ _
  case seImm | sneImm | seReg | sneReg => cases h; exact pcBounded_skipIf hhi _
  case skp =>
    rw [exec, execSkp, withKeyIndex_eq_next] at h
    cases h.2
    exact pcBounded_skipIf hhi _
  case sknp =>
    rw [exec, execSknp, withKeyIndex_eq_next] at h
    cases h.2
    exact pcBounded_skipIf hhi _
  case ldVxK =>
    simp only [exec, execLdVxK] at h
    split at h
    · cases h; exact hkept rfl
    · cases h; exact pcBounded_rewind hlo hhi
  all_goals exact hkept (exec_changesOnly h .pc (by simp [writes]))

/-- From an advanced pc every handler keeps the bound on the stack: only CALL pushes, and it pushes that pc (R81). -/
theorem exec_stackBounded {i : Instr} (h : exec i s = .next t) (hhi : s.pc.toNat ≤ 0x1000) (hs : StackBounded s) :
    StackBounded t := by
  cases i
  case ret =>
    obtain ⟨hSP, rfl⟩ := execRet_eq_next h
    exact fun j hj => hs j (Nat.lt_of_lt_of_le hj (Nat.sub_le _ _))
  case call =>
    obtain ⟨hSP, rfl⟩ := execCall_eq_next h
    intro j hj
    rw [setPc_STACK, pushed_stack]
    split
    · exact hhi
    · next hne => exact hs j (Nat.lt_of_le_of_ne (Nat.le_of_lt_succ hj) (Ne.symm hne))
  all_goals
    intro j hj
    have hSP : t.SP = s.SP := exec_changesOnly h .SP (by simp [writes])
    have hcell : t.STACK[j] = s.STACK[j] := exec_changesOnly h (.stack j) (by simp [writes])
    rw [hcell]
    exact hs j (hSP ▸ hj)

/-! ### The invariant -/

theorem inv_resetWith (c : Config) (n : Nat) : (State.resetWith c n).Inv where
  memCanonical := wf_nil
  pcBounded := show (0x200 : Word).toNat ≤ 0x10FE by decide
  stackBounded := fun j hj => absurd hj (Nat.not_lt_zero j.val)

theorem inv_takeFault (h : s.Inv) (k : Fault) : (s.takeFault k).Inv := ⟨h.memCanonical, h.pcBounded, h.stackBounded⟩

theorem inv_tick (h : s.Inv) : s.tick.Inv := ⟨h.memCanonical, h.pcBounded, h.stackBounded⟩

/-- Settles O17: both reset states are `State.resetWith`. -/
theorem resetMeetsTheInvariant : Obligations.ResetMeetsTheInvariant :=
  ⟨inv_resetWith _ _, fun _ => inv_resetWith _ _⟩

/-- A fetch that does not fault leaves an advanced pc of at least 2 and at most 0x1000 (R60, R61). -/
theorem advance_pc_range {w w' : Word} (h : s.fetch = .ok w) :
    2 ≤ (s.advance w').pc.toNat ∧ (s.advance w').pc.toNat ≤ 0x1000 := by
  obtain ⟨hpc, -⟩ := fetch_eq_ok.1 h
  have htwo : (2 : Word).toNat = 2 := rfl
  rw [advance_pc, BitVec.toNat_add, htwo]
  omega

theorem step_inv (hs : s.Inv) (h : step s = .next t) : t.Inv := by
  obtain ⟨-, ⟨k, rfl⟩ | ⟨w, i, u, hw, -, hu, rfl⟩⟩ := step_cases h
  · exact inv_takeFault hs k
  · obtain ⟨hmem, -, hstack⟩ := hs
    obtain ⟨hlo, hhi⟩ := advance_pc_range (w' := w) hw
    exact inv_tick ⟨exec_memCanonical hu hmem, exec_pcBounded hu hlo hhi hstack, exec_stackBounded hu hhi hstack⟩

/-- Settles O18: a fault changes the status alone, and a handler runs on an advanced pc. -/
theorem everyStepKeepsTheInvariant : Obligations.EveryStepKeepsTheInvariant := fun _ _ => step_inv

theorem loadProgram_inv (s : State) (bytes : List Byte) : (s.loadProgram bytes).Inv := by
  have hreset : s.hostReset.Inv := inv_resetWith s.config s.draws
  simp only [State.loadProgram]
  split
  · exact inv_takeFault hreset _
  · next hlen =>
    have hfits : programBase + bytes.length ≤ memSize := by
      simp only [maxProgram, programBase, memSize] at hlen ⊢
      omega
    exact ⟨wf_copyIn hreset.memCanonical _ _ hfits, hreset.pcBounded, hreset.stackBounded⟩

theorem move_inv (s : State) (m : HostMove) (hs : s.Inv) : (s.move m).Inv := by
  cases m with
  | step =>
    rcases requestStep_cases s with h | h
    · rwa [State.move, h]
    · exact step_inv hs h
  | key k pressed =>
    rw [State.move, writeKey_eq]
    exact ⟨hs.memCanonical, hs.pcBounded, hs.stackBounded⟩
  | load bytes => exact loadProgram_inv s bytes
  | reset => exact inv_resetWith _ _

/-- Settles O19, by induction on the schedule. -/
theorem everyScheduleKeepsTheInvariant : Obligations.EveryScheduleKeepsTheInvariant :=
  fun _ ms hs => moves_induction move_inv ms hs

end Sys2Proof.Machine
end

section
/-!
One store (spec/20_memory.md R45, R47; decision D16): the byte it sets, what it leaves unchanged and where it faults.
-/

namespace Sys2Proof.Machine

variable {s t : State} {a : Nat} {v : Byte}

/-- The byte stored is the byte read back, where memory is canonical (log entry 4). -/
theorem memWrite_byteAt_self (hs : MemCanonical s) (h : memWrite s a v = .next t) : t.byteAt a = v := by
  obtain ⟨-, rfl⟩ := memWrite_eq_next.1 h
  exact (read_write hs a a v).trans (if_pos rfl)

theorem changesOnly_memWrite (h : memWrite s a v = .next t) : ChangesOnly (fun p => p = .byte a) s t := by
  obtain ⟨-, rfl⟩ := memWrite_eq_next.1 h
  intro p hp
  cases p
  case byte b => exact read_write_of_ne s.mem v fun hba => hp (congrArg Part.byte hba)
  all_goals rfl

/-- Settles O20: the bound of R47 is the model's, and a store in it sets its byte and leaves the rest. -/
theorem memWriteSetsOneByte : Obligations.MemWriteSetsOneByte := by
  intro s a v hs
  have hbound : a ≤ 0xFFF ↔ a < 4096 := Nat.lt_succ_iff.symm
  rw [hbound]
  refine ⟨fun h => ?_, memWrite_of_not v⟩
  have hw := memWrite_eq_next (v := v) |>.2 ⟨h, rfl⟩
  exact ⟨_, hw, memWrite_byteAt_self hs hw, changesOnly_memWrite hw⟩

end Sys2Proof.Machine
end

section
/-!
Decoding and encoding (spec/30_encoding.md R62 to R77; decision D3): the decoder reads a word through its fields alone,
so each word is settled by the fields of its layout.
-/

namespace Sys2Proof

variable {w : Word} {i : Instr}

/-! ### The families that are keyed a second time (R67 to R70) -/

theorem decodeWord_family0 (hF : fieldF w = 0x0) : decodeWord w = decodeFamily0 w := by simp [decodeWord, hF]

theorem decodeWord_family8 (hF : fieldF w = 0x8) : decodeWord w = decodeFamily8 w := by simp [decodeWord, hF]

theorem decodeWord_familyE (hF : fieldF w = 0xE) : decodeWord w = decodeFamilyE w := by simp [decodeWord, hF]

theorem decodeWord_familyF (hF : fieldF w = 0xF) : decodeWord w = decodeFamilyF w := by simp [decodeWord, hF]

/-! ### The instructions whose word has bits that are not decoded (R72) -/

theorem decodeWord_cls (hF : fieldF w = 0x0) (hN : fieldN w = 0x0) : decodeWord w = .ok .cls := by
  simp [decodeWord_family0 hF, decodeFamily0, hN]

theorem decodeWord_ret (hF : fieldF w = 0x0) (hN : fieldN w = 0xE) : decodeWord w = .ok .ret := by
  simp [decodeWord_family0 hF, decodeFamily0, hN]

theorem decodeWord_seReg (hF : fieldF w = 0x5) : decodeWord w = .ok (.seReg (fieldX w) (fieldY w)) := by
  simp [decodeWord, hF]

theorem decodeWord_sneReg (hF : fieldF w = 0x9) : decodeWord w = .ok (.sneReg (fieldX w) (fieldY w)) := by
  simp [decodeWord, hF]

theorem decodeWord_skp (hF : fieldF w = 0xE) (hN : fieldN w = 0xE) : decodeWord w = .ok (.skp (fieldX w)) := by
  simp [decodeWord_familyE hF, decodeFamilyE, hN]

theorem decodeWord_sknp (hF : fieldF w = 0xE) (hN : fieldN w = 0x1) : decodeWord w = .ok (.sknp (fieldX w)) := by
  simp [decodeWord_familyE hF, decodeFamilyE, hN]

/-! ### Decode of encode (R77) -/

theorem decodeWord_encode (hi : i.WellFormed) : decodeWord (encode i) = .ok i := by
  cases i
  case cls => exact decodeWord_cls (by decide) (by decide)
  case ret => exact decodeWord_ret (by decide) (by decide)
  case jp | call | ldI => simp [encode, decodeWord, fieldF_packNnn, fieldNnn_packNnn]
  case jpOffset nnn x =>
    obtain rfl : x = topNibble nnn := of_decide_eq_true hi
    simp [encode, decodeWord, fieldF_packNnn, fieldNnn_packNnn, fieldX_packNnn]
  case seImm | sneImm | ldImm | addImm | rnd =>
    simp [encode, decodeWord, fieldF_packXkk, fieldX_packXkk, fieldKk_packXkk]
  case seReg | sneReg | drw =>
    simp [encode, decodeWord, fieldF_packXyn, fieldX_packXyn, fieldY_packXyn, fieldN_packXyn]
  case ldReg | orReg | andReg | xorReg | addReg | subReg | shr | subnReg | shl =>
    rw [encode, decodeWord_family8 (fieldF_packXyn _ _ _ _)]
    simp [decodeFamily8, fieldX_packXyn, fieldY_packXyn, fieldN_packXyn]
  case skp x =>
    rw [encode, decodeWord_skp (fieldF_packXkk _ _ _) (Fin.ext (fieldN_packXkk_val _ _ _)), fieldX_packXkk]
  case sknp x =>
    rw [encode, decodeWord_sknp (fieldF_packXkk _ _ _) (Fin.ext (fieldN_packXkk_val _ _ _)), fieldX_packXkk]
  case ldVxDt | ldVxK | ldDtVx | ldStVx | addIVx | ldFVx | ldBVx | ldMemVx | ldVxMem =>
    rw [encode, decodeWord_familyF (fieldF_packXkk _ _ _)]
    simp [decodeFamilyF, fieldX_packXkk, fieldKk_packXkk]

/-- The decoder reads the two bytes of a word as that word and leaves the rest (R62, R74). -/
theorem decode_bytes (h : decodeWord w = .ok i) (rest : List Byte) :
    decode (hiByte w :: loByte w :: rest) = .ok (i, rest) := by
  rw [decode, wordOfBytes_bytes, h]

/-- Settles O2: the canonical word holds each field at the place the decoder reads it from. -/
theorem decodeOfEncodeIsIdentity : Obligations.DecodeOfEncodeIsIdentity :=
  fun _ hi => ⟨decodeWord_encode hi, decode_bytes (decodeWord_encode hi)⟩

/-- Settles O1: nine of the words are canonical ones, and 0x8008 is illegal. -/
theorem writtenOutWordsDecode : Obligations.WrittenOutWordsDecode :=
  ⟨decodeWord_encode (i := .cls) rfl, decodeWord_encode (i := .ret) rfl, decodeWord_encode (i := .call 0x210) rfl,
    decodeWord_encode (i := .ldImm 0xA 0x2F) rfl, decodeWord_encode (i := .addReg 0 1) rfl,
    decodeWord_encode (i := .jpOffset 0x20A 2) rfl, decodeWord_encode (i := .drw 1 2 5) rfl,
    decodeWord_encode (i := .sknp 5) rfl, decodeWord_encode (i := .ldVxMem 2) rfl, rfl⟩

/-! ### What a mask of whole nibbles keeps of a word (R72) -/

/-- A mask given nibble by nibble acts on each nibble of a word. -/
theorem and_nibbles (w : Word) (mF mx my mn : BitVec 4) :
    w &&& (mF ++ mx ++ my ++ mn) =
      (nibbleBits (fieldF w) &&& mF) ++ (nibbleBits (fieldX w) &&& mx) ++ (nibbleBits (fieldY w) &&& my) ++
        (nibbleBits (fieldN w) &&& mn) := by
  refine (congrArg (· &&& _) (eq_packXyn w)).trans (BitVec.and_append.trans ?_)
  rw [BitVec.and_append, BitVec.and_append]

theorem nibbleBits_and_F (f : Fin 16) : nibbleBits f &&& 0xF = nibbleBits f := BitVec.and_allOnes

theorem nibbleBits_and_0 (f : Fin 16) : nibbleBits f &&& 0x0 = nibbleBits 0x0 := BitVec.and_zero

/-- Of CLS and RET the decoder reads the outer nibbles. -/
theorem and_F00F (w : Word) : w &&& 0xF00F = packXyn (fieldF w) 0x0 0x0 (fieldN w) := by
  refine (and_nibbles w 0xF 0x0 0x0 0xF).trans ?_
  simp only [nibbleBits_and_F, nibbleBits_and_0, packXyn]

/-- Of SE Vx, Vy and SNE Vx, Vy the decoder reads all but the last nibble. -/
theorem and_FFF0 (w : Word) : w &&& 0xFFF0 = packXyn (fieldF w) (fieldX w) (fieldY w) 0x0 := by
  refine (and_nibbles w 0xF 0xF 0xF 0x0).trans ?_
  simp only [nibbleBits_and_F, nibbleBits_and_0, packXyn]

/-- Of SKP and SKNP the decoder reads all but the third nibble. -/
theorem and_FF0F (w : Word) : w &&& 0xFF0F = packXyn (fieldF w) (fieldX w) 0x0 (fieldN w) := by
  refine (and_nibbles w 0xF 0xF 0x0 0xF).trans ?_
  simp only [nibbleBits_and_F, nibbleBits_and_0, packXyn]

/-! ### The word of an instruction, up to the bits that are not decoded (R72, R77) -/

/-- The word agrees with the canonical word of a well-formed instruction on every bit the decoder reads. -/
def StandsFor (w : Word) (i : Instr) : Prop := i.WellFormed ∧ w &&& decodedBits i = encode i &&& decodedBits i

theorem standsFor_of_eq_encode (hi : i.WellFormed) (hw : w = encode i) : StandsFor w i := ⟨hi, by rw [← hw]⟩

theorem standsFor_cls (hF : fieldF w = 0x0) (hN : fieldN w = 0x0) : StandsFor w .cls :=
  ⟨rfl, by rw [decodedBits, and_F00F, hF, hN]; rfl⟩

theorem standsFor_ret (hF : fieldF w = 0x0) (hN : fieldN w = 0xE) : StandsFor w .ret :=
  ⟨rfl, by rw [decodedBits, and_F00F, hF, hN]; rfl⟩

theorem standsFor_seReg (hF : fieldF w = 0x5) : StandsFor w (.seReg (fieldX w) (fieldY w)) :=
  ⟨rfl, by simp only [decodedBits, encode, and_FFF0, hF, fieldF_packXyn, fieldX_packXyn, fieldY_packXyn]⟩

theorem standsFor_sneReg (hF : fieldF w = 0x9) : StandsFor w (.sneReg (fieldX w) (fieldY w)) :=
  ⟨rfl, by simp only [decodedBits, encode, and_FFF0, hF, fieldF_packXyn, fieldX_packXyn, fieldY_packXyn]⟩

/-- The low byte `kk` of the canonical word may have another high nibble than the word: it is not decoded. -/
theorem and_FF0F_eq_packXkk {F n : Fin 16} (kk : Byte) (hF : fieldF w = F) (hN : fieldN w = n)
    (hkk : kk.toNat % 16 = n.val) : w &&& 0xFF0F = packXkk F (fieldX w) kk &&& 0xFF0F := by
  have hn : fieldN (packXkk F (fieldX w) kk) = n := Fin.ext ((fieldN_packXkk_val _ _ _).trans hkk)
  rw [and_FF0F, and_FF0F, fieldF_packXkk, fieldX_packXkk, hF, hN, hn]

theorem standsFor_skp (hF : fieldF w = 0xE) (hN : fieldN w = 0xE) : StandsFor w (.skp (fieldX w)) :=
  ⟨rfl, and_FF0F_eq_packXkk 0x9E hF hN rfl⟩

theorem standsFor_sknp (hF : fieldF w = 0xE) (hN : fieldN w = 0x1) : StandsFor w (.sknp (fieldX w)) :=
  ⟨rfl, and_FF0F_eq_packXkk 0xA1 hF hN rfl⟩

theorem eq_packXyn_of {F n : Fin 16} (hF : fieldF w = F) (hN : fieldN w = n) :
    w = packXyn F (fieldX w) (fieldY w) n := by
  rw [← hF, ← hN, ← eq_packXyn]

theorem eq_packXkk_of {F : Fin 16} {kk : Byte} (hF : fieldF w = F) (hkk : (fieldKk w).toNat = kk.toNat) :
    w = packXkk F (fieldX w) kk := by
  rw [← hF, ← BitVec.eq_of_toNat_eq hkk, ← eq_packXkk]

theorem eq_packNnn_of {F : Fin 16} (hF : fieldF w = F) : w = packNnn F (fieldNnn w) := by
  rw [← hF, ← eq_packNnn]

/-! ### What the decoder can answer (R65 to R71) -/

/-- An answer to a word: an instruction the word stands for, or the word's own illegality where `illegal` holds. -/
inductive DecodeAnswer (w : Word) (illegal : Prop) : Except DecodeError Instr → Prop
  | ok {i : Instr} (hi : StandsFor w i) (hlegal : ¬ illegal) : DecodeAnswer w illegal (.ok i)
  | error (hillegal : illegal) : DecodeAnswer w illegal (.error (.unimplementedOpcode w))

theorem DecodeAnswer.congr {p q : Prop} {r : Except DecodeError Instr} (h : DecodeAnswer w p r) (hpq : p ↔ q) :
    DecodeAnswer w q r :=
  propext hpq ▸ h

theorem DecodeAnswer.standsFor {p : Prop} (h : DecodeAnswer w p (.ok i)) : StandsFor w i := by
  cases h with
  | ok hi _ => exact hi

/-- The decoder is total: an instruction, or the word's own illegality. -/
theorem DecodeAnswer.error_or_ok {p : Prop} {r : Except DecodeError Instr} (h : DecodeAnswer w p r) :
    r = .error (.unimplementedOpcode w) ∨ ∃ i, r = .ok i := by
  cases h with
  | ok _ _ => exact .inr ⟨_, rfl⟩
  | error _ => exact .inl rfl

theorem DecodeAnswer.eq_error_iff {p : Prop} {r : Except DecodeError Instr} (h : DecodeAnswer w p r) :
    r = .error (.unimplementedOpcode w) ↔ p := by
  cases h with
  | ok _ hlegal => exact iff_of_false (by simp) hlegal
  | error hillegal => exact iff_of_true rfl hillegal

theorem decodeFamily0_answer (hF : fieldF w = 0x0) : DecodeAnswer w (fieldN w ∉ [0x0, 0xE]) (decodeFamily0 w) := by
  unfold decodeFamily0
  split
  case h_1 hN => exact .ok (standsFor_cls hF hN) (by simp [hN])
  case h_2 hN => exact .ok (standsFor_ret hF hN) (by simp [hN])
  case h_3 => exact .error (by simp_all)

theorem decodeFamily8_answer (hF : fieldF w = 0x8) :
    DecodeAnswer w (fieldN w ∈ [0x8, 0x9, 0xA, 0xB, 0xC, 0xD, 0xF]) (decodeFamily8 w) := by
  unfold decodeFamily8
  split
  case h_10 => exact .error (by simp only [imp_false, List.mem_cons, Fin.ext_iff] at *; omega)
  all_goals
    next hN => exact .ok (standsFor_of_eq_encode rfl (eq_packXyn_of hF hN)) (by simp [hN])

theorem decodeFamilyE_answer (hF : fieldF w = 0xE) : DecodeAnswer w (fieldN w ∉ [0xE, 0x1]) (decodeFamilyE w) := by
  unfold decodeFamilyE
  split
  case h_1 hN => exact .ok (standsFor_sknp hF hN) (by simp [hN])
  case h_2 hN => exact .ok (standsFor_skp hF hN) (by simp [hN])
  case h_3 => exact .error (by simp_all)

theorem decodeFamilyF_answer (hF : fieldF w = 0xF) :
    DecodeAnswer w ((fieldKk w).toNat ∉ [0x07, 0x0A, 0x15, 0x18, 0x1E, 0x29, 0x33, 0x55, 0x65])
      (decodeFamilyF w) := by
  unfold decodeFamilyF
  split
  case h_10 => exact .error (by simp_all)
  all_goals
    next hkk => exact .ok (standsFor_of_eq_encode rfl (eq_packXkk_of hF hkk)) (by simp [hkk])

/-- The illegal words of R71, by their fields. -/
def IllegalWord (w : Word) : Prop :=
  (fieldF w = 0x0 ∧ fieldN w ∉ [0x0, 0xE]) ∨
  (fieldF w = 0x8 ∧ fieldN w ∈ [0x8, 0x9, 0xA, 0xB, 0xC, 0xD, 0xF]) ∨
  (fieldF w = 0xE ∧ fieldN w ∉ [0xE, 0x1]) ∨
  (fieldF w = 0xF ∧ (fieldKk w).toNat ∉ [0x07, 0x0A, 0x15, 0x18, 0x1E, 0x29, 0x33, 0x55, 0x65])

/-- In a family that is keyed once every word is legal. -/
theorem decodeAnswer_ok_of_fieldF {F : Fin 16} (hF : fieldF w = F) (hi : StandsFor w i)
    (hkeyedOnce : F ∉ [0x0, 0x8, 0xE, 0xF] := by decide) : DecodeAnswer w (IllegalWord w) (.ok i) :=
  .ok hi (by simp_all [IllegalWord])

/-- Everything the decoder can answer, family by family. -/
theorem decodeWord_answer (w : Word) : DecodeAnswer w (IllegalWord w) (decodeWord w) := by
  unfold decodeWord
  split
  -- Families 0, 8, E and F are keyed a second time.
  case h_1 hF => exact (decodeFamily0_answer hF).congr (by simp [IllegalWord, hF])
  case h_9 hF => exact (decodeFamily8_answer hF).congr (by simp [IllegalWord, hF])
  case h_15 hF => exact (decodeFamilyE_answer hF).congr (by simp [IllegalWord, hF])
  case h_16 =>
    have hF : fieldF w = 0xF := by simp only [imp_false, Fin.ext_iff] at *; omega
    exact (decodeFamilyF_answer hF).congr (by simp [IllegalWord, hF])
  -- Families 1, 2 and A hold an address.
  case h_2 hF | h_3 hF | h_11 hF =>
    exact decodeAnswer_ok_of_fieldF hF (standsFor_of_eq_encode rfl (eq_packNnn_of hF))
  -- Family B holds an address and its top nibble.
  case h_12 hF =>
    have hwf : (Instr.jpOffset (fieldNnn w) (fieldX w)).WellFormed := decide_eq_true (fieldX_eq_topNibble w)
    exact decodeAnswer_ok_of_fieldF hF (standsFor_of_eq_encode hwf (eq_packNnn_of hF))
  -- Families 3, 4, 6, 7 and C hold a register and a byte.
  case h_4 hF | h_5 hF | h_7 hF | h_8 hF | h_13 hF =>
    exact decodeAnswer_ok_of_fieldF hF (standsFor_of_eq_encode rfl (eq_packXkk_of hF rfl))
  -- Families 5, 9 and D hold two registers.
  case h_6 hF => exact decodeAnswer_ok_of_fieldF hF (standsFor_seReg hF)
  case h_10 hF => exact decodeAnswer_ok_of_fieldF hF (standsFor_sneReg hF)
  case h_14 hF => exact decodeAnswer_ok_of_fieldF hF (standsFor_of_eq_encode rfl (eq_packXyn_of hF rfl))

/-- Settles O3: a legal word stands for the instruction the decoder answers. -/
theorem decodedWordIsCanonicalUpToUndecodedBits : Obligations.DecodedWordIsCanonicalUpToUndecodedBits :=
  fun w _ h => (h ▸ decodeWord_answer w).standsFor

/-! ### The illegal words (R71) -/

/-- The illegal words by number. -/
theorem illegalWord_iff_toNat (w : Word) : IllegalWord w ↔
    (w.toNat / 4096 = 0x0 ∧ w.toNat % 16 ∉ [0x0, 0xE]) ∨
    (w.toNat / 4096 = 0x8 ∧ w.toNat % 16 ∈ [0x8, 0x9, 0xA, 0xB, 0xC, 0xD, 0xF]) ∨
    (w.toNat / 4096 = 0xE ∧ w.toNat % 16 ∉ [0xE, 0x1]) ∨
    (w.toNat / 4096 = 0xF ∧ w.toNat % 256 ∉ [0x07, 0x0A, 0x15, 0x18, 0x1E, 0x29, 0x33, 0x55, 0x65]) := by
  simp only [IllegalWord, Fin.ext_iff, List.mem_cons, List.not_mem_nil, fieldF_val, fieldN_val, fieldKk_toNat]
  rfl

/-- Settles O5: the decoder's own errors, by number, and the fault a step takes on one. -/
theorem illegalWordsAreExactlyTheListed : Obligations.IllegalWordsAreExactlyTheListed :=
  ⟨fun w => (decodeWord_answer w).error_or_ok,
    fun w => (decodeWord_answer w).eq_error_iff.trans (illegalWord_iff_toNat w),
    fun _ _ hs hw h => Machine.step_of_illegal hs hw h⟩

/-! ### The bits that are not decoded (R72) -/

theorem fieldF_append_byte (f n : BitVec 4) (b : Byte) : fieldF (f ++ b ++ n) = f.toFin :=
  Fin.ext (by rw [fieldF_val, append_toNat, append_toNat, BitVec.val_toFin]; omega)

theorem fieldN_append_byte (f n : BitVec 4) (b : Byte) : fieldN (f ++ b ++ n) = n.toFin :=
  Fin.ext (by rw [fieldN_val, append_toNat, append_toNat, BitVec.val_toFin]; omega)

theorem decodeWord_packXyn_seReg (x y : RegIdx) (n : Fin 16) : decodeWord (packXyn 0x5 x y n) = .ok (.seReg x y) := by
  rw [decodeWord_seReg (fieldF_packXyn _ _ _ _), fieldX_packXyn, fieldY_packXyn]

theorem decodeWord_packXyn_sneReg (x y : RegIdx) (n : Fin 16) :
    decodeWord (packXyn 0x9 x y n) = .ok (.sneReg x y) := by
  rw [decodeWord_sneReg (fieldF_packXyn _ _ _ _), fieldX_packXyn, fieldY_packXyn]

theorem decodeWord_packXyn_skp (x y : Fin 16) : decodeWord (packXyn 0xE x y 0xE) = .ok (.skp x) := by
  rw [decodeWord_skp (fieldF_packXyn _ _ _ _) (fieldN_packXyn _ _ _ _), fieldX_packXyn]

theorem decodeWord_packXyn_sknp (x y : Fin 16) : decodeWord (packXyn 0xE x y 0x1) = .ok (.sknp x) := by
  rw [decodeWord_sknp (fieldF_packXyn _ _ _ _) (fieldN_packXyn _ _ _ _), fieldX_packXyn]

/-- Settles O4: the fields that select an instruction and its operands are the same whatever the other bits are. -/
theorem undecodedBitsSelectNothing : Obligations.UndecodedBitsSelectNothing := by
  refine ⟨fun b => ⟨?_, ?_⟩, fun x y n => ⟨?_, ?_⟩, fun x b => ⟨?_, ?_⟩, fun x y y' s hcopy => ⟨?_, ?_⟩⟩
  · exact decodeWord_cls (fieldF_append_byte _ _ b) (fieldN_append_byte _ _ b)
  · exact decodeWord_ret (fieldF_append_byte _ _ b) (fieldN_append_byte _ _ b)
  · exact decodeWord_packXyn_seReg x y n.toFin
  · exact decodeWord_packXyn_sneReg x y n.toFin
  · exact decodeWord_packXyn_skp x b.toFin
  · exact decodeWord_packXyn_sknp x b.toFin
  · simp [Machine.exec, Machine.execShr, Machine.shiftOperands, Machine.shiftSource, hcopy]
  · simp [Machine.exec, Machine.execShl, Machine.shiftOperands, Machine.shiftSource, hcopy]

end Sys2Proof
end

section
/-!
The step around a handler (spec/30_encoding.md R59 to R61; spec/60_exceptions.md R121; decision D8, log entry 6): the
fetch, and what a running block answers.
-/

namespace Sys2Proof.Machine

variable {s : State}

/-- Settles O6: within the bound of R60 the word fetched is the two bytes at pc, the high one first. -/
theorem fetchIsBoundedAndBigEndian : Obligations.FetchIsBoundedAndBigEndian := by
  refine fun s => ⟨fun hpc => ?_, fetch_of_out⟩
  have hfetch : s.fetch = .ok s.fetchWord := fetch_eq_ok.2 ⟨Nat.lt_succ_of_le (Nat.succ_le_succ hpc), rfl⟩
  exact ⟨_, hfetch, hiByte_wordOfBytes _ _, loByte_wordOfBytes _ _⟩

/-- Settles O7: the step is `finishStep` of the handler's answer on the advanced state. -/
theorem stepRunsDecodedInstruction : Obligations.StepRunsDecodedInstruction := by
  refine fun s hs => ⟨fun hpc => step_of_fetch_error hs (fetch_of_out hpc), fun w i hpc hw hd => ?_⟩
  have hstep : step s = finishStep s (exec i (s.advance w)) := step_of_decoded hs (fetch_eq_ok.2 ⟨hpc, hw⟩) hd
  refine ⟨fun u hu => ?_, fun k hk => ?_, exec_not_refused i _⟩
  · exact hstep.trans (congrArg (finishStep s) hu)
  · exact hstep.trans (congrArg (finishStep s) hk)

/-- No handler refuses, so the end of a step is a next state. -/
theorem finishStep_exec_eq_next (s t : State) (i : Instr) : ∃ u, finishStep s (exec i t) = .next u := by
  cases h : exec i t with
  | next u => exact ⟨u.tick, rfl⟩
  | fault k => exact ⟨s.takeFault k, rfl⟩
  | refused r => exact absurd h (exec_not_refused i t r)

/-- Settles O9, phase by phase: the fetch, the decode and the handler each go on or are taken as a fault. -/
theorem runningStepAlwaysAnswersNext : Obligations.RunningStepAlwaysAnswersNext := by
  intro s hs
  cases hw : s.fetch with
  | error k => exact ⟨_, step_of_fetch_error hs hw⟩
  | ok w =>
    cases hd : decodeWord w with
    | error e => exact ⟨_, step_of_illegal hs hw hd⟩
    | ok i =>
      rw [step_of_decoded hs hw hd]
      exact finishStep_exec_eq_next s _ i

end Sys2Proof.Machine
end

section
/-!
Control flow (spec/40_control_flow.md R79 to R88; decisions D4, D11): return and call through the stack, the jumps, and the
conditional skips.
-/

namespace Sys2Proof.Machine

variable {s : State}

/-! ### Return, jump and call -/

/-- The address popped is the topmost cell pushed (R79). -/
theorem popped_pc {j : Fin 16} (hj : s.SP.val = j.val + 1) (h : 0 < s.SP.val) : (s.popped h).pc = s.STACK[j] := by
  simp [State.popped, hj]

/-- Settles O21: a RET is a pop. -/
theorem retPopsTheReturnAddress : Obligations.RetPopsTheReturnAddress := by
  refine ⟨fun b => decodeWord_ret (fieldF_append_byte _ _ b) (fieldN_append_byte _ _ b), fun s => ⟨fun hSP => ?_, ?_⟩⟩
  · exact pop_of_empty (congrArg Fin.val hSP)
  · intro j hj
    have hpos : 0 < s.SP.val := hj ▸ Nat.succ_pos _
    exact ⟨s.popped hpos, pop_eq_popped hpos, Nat.sub_eq_of_eq_add hj, popped_pc hj hpos, changesOnly_popped s hpos⟩

/-- Settles O22: a JP is a write of pc. -/
theorem jpSetsPc : Obligations.JpSetsPc :=
  fun nnn => ⟨decodeWord_encode (i := .jp nnn) rfl,
    fun s => ⟨s.setPc (zextAddr nnn), rfl, zextAddr_toNat nnn, changesOnly_setPc s _⟩⟩

theorem exec_call (nnn : Addr) (s : State) :
    exec (.call nnn) s = s.push fun t => .next (t.setPc (zextAddr nnn)) := rfl

/-- With one cell known to be the one at SP, a call writes that cell, SP and pc. -/
theorem writes_call {nnn : Addr} {j : Fin 16} (hj : s.SP.val = j.val) (p : Part) (hp : writes s (.call nnn) p) :
    p = .stack j ∨ p = .SP ∨ p = .pc := by
  obtain hp | hp | ⟨k, hk, hp⟩ := hp
  · exact .inr (.inl hp)
  · exact .inr (.inr hp)
  · obtain rfl : k = j := Fin.ext (hk.trans hj)
    exact .inl hp

/-- Settles O23: a CALL is a push of the pc it sees, then a jump. -/
theorem callPushesTheAdvancedPc : Obligations.CallPushesTheAdvancedPc := by
  refine fun nnn => ⟨decodeWord_encode (i := .call nnn) rfl, fun s => ⟨fun hSP => ?_, fun j hj => ?_⟩⟩
  · exact (exec_call nnn s).trans (push_of_full _ (congrArg Fin.val hSP))
  · have hroom : s.SP.val < 16 := hj ▸ j.isLt
    have hexec : exec (.call nnn) s = .next ((s.pushed hroom).setPc (zextAddr nnn)) :=
      (exec_call nnn s).trans (push_eq_pushed _ hroom)
    exact ⟨_, hexec, (pushed_stack hroom j).trans (if_pos hj), congrArg (· + 1) hj, zextAddr_toNat nnn,
      changesOnly_mono (exec_changesOnly hexec) (writes_call hj)⟩

/-! ### A jump with an offset -/

/-- An address plus a byte stays below 2^16: the sum of Bnnn does not wrap (R86). -/
theorem zextAddr_add_zextByte_toNat (nnn : Addr) (b : Byte) :
    (zextAddr nnn + zextByte b).toNat = nnn.toNat + b.toNat := by
  have hnnn := nnn.isLt
  have hb := b.isLt
  rw [BitVec.toNat_add, zextAddr_toNat, zextByte_toNat]
  omega

theorem jumpOffset_v0 {c : Config} (x : RegIdx) (h : c.jumpOffsetReg = .v0) : jumpOffset c x = 0 := by
  simp [jumpOffset, h]

theorem jumpOffset_vx {c : Config} (x : RegIdx) (h : c.jumpOffsetReg = .vx) : jumpOffset c x = x := by
  simp [jumpOffset, h]

/-- Settles O26: the decoder gives Bnnn the top nibble of its address, and the sum is exact. -/
theorem jpOffsetAddsARegister : Obligations.JpOffsetAddsARegister := by
  refine fun nnn => ⟨topNibble nnn, topNibble_val nnn, decodeWord_encode (i := .jpOffset nnn _) (decide_eq_true rfl),
    fun s => ⟨_, rfl, fun hv0 => ?_, fun hvx => ?_, changesOnly_setPc s _⟩⟩
  · rw [setPc_pc, zextAddr_add_zextByte_toNat, jumpOffset_v0 _ hv0]
  · rw [setPc_pc, zextAddr_add_zextByte_toNat, jumpOffset_vx _ hvx]

/-! ### The conditional skips -/

/-- An answer that is a conditional skip moves pc by 2 or not at all, as the tested condition says, and nothing else. -/
theorem next_skipIf {o : Out} {b : Bool} {yes no : Prop} (ho : o = .next (s.skipIf b)) (hyes : yes → b = true)
    (hno : no → b = false) :
    ∃ t, o = .next t ∧ (yes → t.pc = s.pc + 2) ∧ (no → t.pc = s.pc) ∧ ChangesOnly (fun p => p = .pc) s t := by
  refine ⟨_, ho, fun h => ?_, fun h => ?_, changesOnly_skipIf s b⟩
  · rw [hyes h, skipIf_true, skip_pc]
  · rw [hno h, skipIf_false]

/-- Settles O24: SE and SNE are skips on the two outcomes of one comparison. -/
theorem skipsOnImmediate : Obligations.SkipsOnImmediate :=
  fun x kk => ⟨decodeWord_encode (i := .seImm x kk) rfl, decodeWord_encode (i := .sneImm x kk) rfl, fun _ =>
    ⟨next_skipIf rfl beq_iff_eq.2 beq_false_of_ne, next_skipIf rfl bne_iff_ne.2 bne_eq_false_iff_eq.2⟩⟩

/-- Settles O25: as O24, and the last nibble of the word is not decoded. -/
theorem skipsOnRegisters : Obligations.SkipsOnRegisters :=
  fun x y => ⟨fun n => ⟨decodeWord_packXyn_seReg x y n.toFin, decodeWord_packXyn_sneReg x y n.toFin⟩, fun _ =>
    ⟨next_skipIf rfl beq_iff_eq.2 beq_false_of_ne, next_skipIf rfl bne_iff_ne.2 bne_eq_false_iff_eq.2⟩⟩

theorem exec_skp (x : RegIdx) (s : State) :
    exec (.skp x) s = withKeyIndex s x fun k => .next (s.skipIf s.KEY[k]) := rfl

theorem exec_sknp (x : RegIdx) (s : State) :
    exec (.sknp x) s = withKeyIndex s x fun k => .next (s.skipIf (!s.KEY[k])) := rfl

theorem withKeyIndex_of_fault {x : RegIdx} (f : RegIdx → Out)
    (h : (s.reg x).toNat > 15 ∧ s.config.keyIndexPolicy = .fault) : withKeyIndex s x f = .fault .undefined :=
  if_pos h

/-- A key index in range, or masked to its low nibble, names that key. -/
theorem withKeyIndex_of_key {x k : RegIdx} (f : RegIdx → Out)
    (h : (s.reg x).toNat ≤ 15 ∨ s.config.keyIndexPolicy = .lowNibble) (hk : k.val = (s.reg x).toNat % 16) :
    withKeyIndex s x f = f k := by
  have hlegal : ¬ ((s.reg x).toNat > 15 ∧ s.config.keyIndexPolicy = .fault) := by
    rintro ⟨hbig, hfault⟩
    rcases h with hsmall | hmasked
    · omega
    · cases hfault.symm.trans hmasked
  obtain rfl : k = lowNibble (s.reg x) := Fin.ext hk
  exact if_neg hlegal

/-- Settles O27: where the index names a key, SKP and SKNP are skips on that key. -/
theorem skipsOnKey : Obligations.SkipsOnKey := by
  refine fun x => ⟨fun b => ⟨decodeWord_packXyn_skp x b.toFin, decodeWord_packXyn_sknp x b.toFin⟩,
    fun s => ⟨fun hfault => ?_, fun k hlegal hk => ?_⟩⟩
  · rw [exec_skp, exec_sknp, withKeyIndex_of_fault _ hfault, withKeyIndex_of_fault _ hfault]
    exact ⟨rfl, rfl⟩
  · rw [exec_skp, exec_sknp, withKeyIndex_of_key _ hlegal hk, withKeyIndex_of_key _ hlegal hk]
    exact ⟨next_skipIf rfl id id, next_skipIf rfl (congrArg not) (congrArg not)⟩

end Sys2Proof.Machine
end

section
/-!
The ALU and register transfers (spec/41_alu.md R90 to R103; spec/10_state.md R22; decisions D4, D6; log entry 2): writes of
one register, then the flag instructions, each a result and a flag under one write discipline, and the masked draw.
-/

namespace Sys2Proof.Machine

variable {s : State}

/-! ### Writes of one register -/

/-- An answer that writes V[x] alone: what follows from the value of V[x] holds after it. -/
theorem next_setReg {o : Out} {x : RegIdx} {b : Byte} {Q : State → Prop} (ho : o = .next (s.setReg x b))
    (hQ : ∀ t : State, t.reg x = b → Q t) : ∃ t, o = .next t ∧ Q t ∧ ChangesOnly (fun p => p = .reg x) s t :=
  ⟨_, ho, hQ _ (setReg_reg_self s x b), changesOnly_setReg s x b⟩

/-- Settles O28: both are a write of V[x]. -/
theorem immediateLoadAndAdd : Obligations.ImmediateLoadAndAdd :=
  fun x kk => ⟨decodeWord_encode (i := .ldImm x kk) rfl, decodeWord_encode (i := .addImm x kk) rfl, fun _ =>
    ⟨next_setReg rfl fun _ ht => ht, next_setReg rfl fun _ ht => ht ▸ BitVec.toNat_add _ _⟩⟩

/-- Settles O29: each is a write of V[x], of a value whose bits the laws of BitVec give. -/
theorem copyAndBitwise : Obligations.CopyAndBitwise := by
  refine fun x y => ⟨decodeWord_encode (i := .ldReg x y) rfl, decodeWord_encode (i := .orReg x y) rfl,
    decodeWord_encode (i := .andReg x y) rfl, decodeWord_encode (i := .xorReg x y) rfl, fun s => ⟨?_, ?_, ?_, ?_⟩⟩
  · exact next_setReg rfl fun _ ht => ht
  · exact next_setReg rfl fun _ ht _ _ => ht ▸ BitVec.getLsbD_or
  · exact next_setReg rfl fun _ ht _ _ => ht ▸ BitVec.getLsbD_and
  · exact next_setReg rfl fun _ ht _ _ => ht ▸ BitVec.getLsbD_xor

/-! ### The end of a flag instruction (R22, R90) -/

/-- The write discipline ends a flag instruction as R90 and R22 say. -/
theorem flagOutcome_writeResultAndFlag (s : State) (x : RegIdx) {r : Byte} {f : Bool} {n : Nat} {p : Prop}
    (hr : r.toNat = n) (hf : f = true ↔ p) : FlagOutcome x n p s (s.writeResultAndFlag x r f) := by
  refine ⟨fun hwins => ?_, fun hwins => ⟨fun hp => ?_, fun hp => ?_⟩, fun hx => ?_,
    changesOnly_writeResultAndFlag s x r f⟩
  · rw [writeResultAndFlag_reg, if_pos rfl, if_pos hwins, hr]
  · rw [writeResultAndFlag_reg, if_pos rfl, if_neg hwins, hf.2 hp]
    rfl
  · rw [writeResultAndFlag_reg, if_pos rfl, if_neg hwins, Bool.eq_false_iff.2 (mt hf.1 hp)]
    rfl
  · rw [writeResultAndFlag_reg, if_neg hx, if_pos rfl, hr]

section FlagOp

variable {ops : List RegIdx} {x : RegIdx} {f : Flagged} {conflict p : Prop} {n : Nat}

theorem flagOp_of_conflict (hops : (15 : RegIdx) ∈ ops ↔ conflict) (h : conflict ∧ s.config.vfConflict = .fault) :
    flagOp s ops x f = .fault .undefined :=
  conflictCheck_of_conflict _ (h.imp_left hops.2)

/-- Without a conflict that faults, a flag instruction writes its result and its flag. -/
theorem next_flagOp (hops : (15 : RegIdx) ∈ ops ↔ conflict) (h : ¬ (conflict ∧ s.config.vfConflict = .fault))
    (hr : f.result.toNat = n) (hf : f.flag = true ↔ p) :
    ∃ t, flagOp s ops x f = .next t ∧ FlagOutcome x n p s t :=
  ⟨_, conflictCheck_of_not _ (mt (And.imp_left hops.1) h), flagOutcome_writeResultAndFlag s x hr hf⟩

end FlagOp

theorem vf_mem_pair (x y : RegIdx) : (15 : RegIdx) ∈ [x, y] ↔ x = 15 ∨ y = 15 := by
  simp [eq_comm]

/-! ### Each result and its flag as numbers (R97 to R101) -/

theorem addFlagged_result_toNat (a b : Byte) : (addFlagged a b).result.toNat = (a.toNat + b.toNat) % 256 :=
  BitVec.toNat_ofNat _ _

theorem addFlagged_flag_iff (a b : Byte) : (addFlagged a b).flag = true ↔ a.toNat + b.toNat > 255 :=
  decide_eq_true_iff

theorem subFlagged_result_toNat (a b : Byte) : (subFlagged a b).result.toNat = (a.toNat + 256 - b.toNat) % 256 := by
  have hb := b.isLt
  rw [subFlagged, BitVec.toNat_sub]
  omega

theorem subFlagged_flag_iff (a b : Byte) : (subFlagged a b).flag = true ↔ a.toNat > b.toNat :=
  decide_eq_true_iff

theorem shrFlagged_result_toNat (a : Byte) : (shrFlagged a).result.toNat = a.toNat / 2 :=
  (BitVec.toNat_ushiftRight a 1).trans (Nat.shiftRight_one _)

theorem shrFlagged_flag_iff (a : Byte) : (shrFlagged a).flag = true ↔ a.toNat % 2 = 1 := by
  rw [shrFlagged, BitVec.getLsbD, Nat.testBit_zero, decide_eq_true_iff]

theorem shlFlagged_result_toNat (a : Byte) : (shlFlagged a).result.toNat = 2 * a.toNat % 256 := by
  rw [shlFlagged, BitVec.toNat_shiftLeft, Nat.shiftLeft_eq, Nat.mul_comm]

/-- Bit 7 is the most significant bit of a byte (R101). -/
theorem shlFlagged_flag_iff (a : Byte) : (shlFlagged a).flag = true ↔ 128 ≤ a.toNat := by
  have hmsb : (shlFlagged a).flag = a.msb := (BitVec.msb_eq_getLsbD_last a).symm
  rw [hmsb, BitVec.msb_eq_decide, decide_eq_true_iff]

/-! ### The flag instructions -/

/-- Settles O30: a flag instruction on Vx and Vy with the sum and its carry. -/
theorem addSetsCarry : Obligations.AddSetsCarry :=
  fun x y => ⟨decodeWord_encode (i := .addReg x y) rfl, fun _ =>
    ⟨flagOp_of_conflict (vf_mem_pair x y), fun h =>
      next_flagOp (vf_mem_pair x y) h (addFlagged_result_toNat _ _) (addFlagged_flag_iff _ _)⟩⟩

/-- Settles O31: a flag instruction on Vx and Vy with the difference and NOT-borrow, in the two orders of the operands. -/
theorem subAndSubnSetNotBorrow : Obligations.SubAndSubnSetNotBorrow := by
  refine fun x y => ⟨decodeWord_encode (i := .subReg x y) rfl, decodeWord_encode (i := .subnReg x y) rfl,
    fun s => ⟨fun h => ?_, fun h => ?_⟩⟩
  · exact ⟨flagOp_of_conflict (vf_mem_pair x y) h, flagOp_of_conflict (vf_mem_pair x y) h⟩
  · exact ⟨next_flagOp (vf_mem_pair x y) h (subFlagged_result_toNat _ _) (subFlagged_flag_iff _ _),
      next_flagOp (vf_mem_pair x y) h (subFlagged_result_toNat _ _) (subFlagged_flag_iff _ _)⟩

theorem shiftSource_of_copies {c : Config} (x y : RegIdx) (h : c.shiftCopiesVy = true) : shiftSource c x y = y :=
  if_pos h

theorem shiftSource_of_not_copies {c : Config} (x y : RegIdx) (h : c.shiftCopiesVy = false) : shiftSource c x y = x := by
  simp [shiftSource, h]

theorem shiftOperands_of_copies {c : Config} (x y : RegIdx) (h : c.shiftCopiesVy = true) :
    shiftOperands c x y = [x, y] :=
  if_pos h

theorem shiftOperands_of_not_copies {c : Config} (x y : RegIdx) (h : c.shiftCopiesVy = false) :
    shiftOperands c x y = [x] := by
  simp [shiftOperands, h]

/-- The byte shifted and the condition of a conflict, as SHIFT_COPIES_VY gives them (R22, R99, R101). -/
theorem shift_reads {x y : RegIdx} {src : Byte} {conflict : Prop}
    (hkeep : s.config.shiftCopiesVy = false → src = s.reg x ∧ (conflict ↔ x = 15))
    (hcopy : s.config.shiftCopiesVy = true → src = s.reg y ∧ (conflict ↔ x = 15 ∨ y = 15)) :
    s.reg (shiftSource s.config x y) = src ∧ ((15 : RegIdx) ∈ shiftOperands s.config x y ↔ conflict) := by
  cases h : s.config.shiftCopiesVy with
  | false =>
    obtain ⟨rfl, hconflict⟩ := hkeep h
    rw [shiftSource_of_not_copies x y h, shiftOperands_of_not_copies x y h, hconflict, List.mem_singleton]
    exact ⟨rfl, eq_comm⟩
  | true =>
    obtain ⟨rfl, hconflict⟩ := hcopy h
    rw [shiftSource_of_copies x y h, shiftOperands_of_copies x y h, hconflict]
    exact ⟨rfl, vf_mem_pair x y⟩

theorem exec_shr (x y : RegIdx) (s : State) :
    exec (.shr x y) s =
      flagOp s (shiftOperands s.config x y) x (shrFlagged (s.reg (shiftSource s.config x y))) := rfl

theorem exec_shl (x y : RegIdx) (s : State) :
    exec (.shl x y) s =
      flagOp s (shiftOperands s.config x y) x (shlFlagged (s.reg (shiftSource s.config x y))) := rfl

/-- Settles O32: flag instructions on the operands and the source that SHIFT_COPIES_VY names. -/
theorem shiftsSetTheBitShiftedOut : Obligations.ShiftsSetTheBitShiftedOut := by
  refine fun x y => ⟨decodeWord_encode (i := .shr x y) rfl, decodeWord_encode (i := .shl x y) rfl,
    fun s src conflict hkeep hcopy => ?_⟩
  obtain ⟨hsrc, hops⟩ := shift_reads hkeep hcopy
  rw [exec_shr, exec_shl, hsrc]
  refine ⟨fun h => ?_, fun h => ?_⟩
  · exact ⟨flagOp_of_conflict hops h, flagOp_of_conflict hops h⟩
  · exact ⟨next_flagOp hops h (shrFlagged_result_toNat src) (shrFlagged_flag_iff src),
      next_flagOp hops h (shlFlagged_result_toNat src) (shlFlagged_flag_iff src)⟩

/-! ### The masked draw -/

/-- Settles O33: a write of V[x], then one draw counted. -/
theorem rndMasksTheDraw : Obligations.RndMasksTheDraw := by
  refine fun x kk => ⟨decodeWord_encode (i := .rnd x kk) rfl, fun s => ⟨_, rfl, fun b _ => ?_, rfl,
    changesOnly_trans (changesOnly_setReg s x _) (changesOnly_draws _ _)⟩⟩
  have hreg : (s.setReg x (Config.drawByte s.draws &&& kk)).reg x = Config.drawByte s.draws &&& kk :=
    setReg_reg_self s x _
  exact (congrArg (BitVec.getLsbD · b) hreg).trans BitVec.getLsbD_and

end Sys2Proof.Machine
end

section
/-!
The display (spec/42_display.md R106 to R108; decisions D6, D7, D10, D19, D29): the clear, then the sprite as a mask that
is XORed into the display, so that drawing it again undoes it.
-/

namespace Sys2Proof.Machine

variable {s t : State} {x y : RegIdx} {n : Fin 16}

/-! ### The clear -/

/-- Settles O34: a CLS writes the clear display, whatever the display was. -/
theorem clsTurnsEveryPixelOff : Obligations.ClsTurnsEveryPixelOff :=
  ⟨fun b => decodeWord_cls (fieldF_append_byte _ _ b) (fieldN_append_byte _ _ b),
    fun _ => ⟨_, rfl, pixel_clear, exec_changesOnly (i := .cls) rfl, _, rfl, rfl⟩⟩

/-! ### What a DRW answers -/

/-- The display and the collision of a DRW that does not fault (R107). -/
def State.sprite (s : State) (x y : RegIdx) (n : Fin 16) : Blit :=
  blit (s.reg x).toNat (s.reg y).toNat n.val (fun row => s.byteAt (s.I.toNat + row)) s.DISP

/-- The state such a DRW answers: the display, then VF (R107, D29). -/
def State.drawn (s : State) (x y : RegIdx) (n : Fin 16) : State :=
  { s with DISP := (s.sprite x y n).1 }.setReg vf (flagByte (s.sprite x y n).2)

/-- The two checks of a DRW come in the order of R123. -/
theorem exec_drw (x y : RegIdx) (n : Fin 16) (s : State) :
    exec (.drw x y n) s =
      conflictCheck s.config [x, y] (checkRange s.I.toNat n.val (.next (s.drawn x y n))) := rfl

theorem exec_drw_of_conflict (h : (x = 15 ∨ y = 15) ∧ s.config.vfConflict = .fault) :
    exec (.drw x y n) s = .fault .undefined :=
  conflictCheck_of_conflict _ (h.imp_left (vf_mem_pair x y).2)

theorem exec_drw_of_not_conflict (h : ¬ ((x = 15 ∨ y = 15) ∧ s.config.vfConflict = .fault)) :
    exec (.drw x y n) s = checkRange s.I.toNat n.val (.next (s.drawn x y n)) :=
  conflictCheck_of_not _ (mt (And.imp_left (vf_mem_pair x y).1) h)

/-- Drawn from coordinate registers other than VF, a DRW answers next where its range check passes. -/
theorem exec_drw_eq_next (hx : x ≠ 15) (hy : y ≠ 15) :
    exec (.drw x y n) s = .next t ↔ (n.val = 0 ∨ s.I.toNat + n.val ≤ 4096) ∧ s.drawn x y n = t := by
  have hconflict : ¬ ((x = 15 ∨ y = 15) ∧ s.config.vfConflict = .fault) := by simp [hx, hy]
  rw [exec_drw_of_not_conflict hconflict, checkRange_eq_next, Host.Outcome.next.injEq]

/-! ### The sprite as a mask (R108) -/

/-- The mask of the blit is the wrapped sprite mask of R108. -/
theorem blitMask_iff_spriteMask (s : State) (x y : RegIdx) (n : Fin 16) (r : Fin 32) (c : Fin 64) :
    BlitMask (s.reg x).toNat (s.reg y).toNat (fun row => s.byteAt (s.I.toNat + row)) n.val r c ↔
      SpriteMask s x y n r c := by
  simp only [BlitMask, RowMask, SpriteMask, Fin.ext_iff, wrapRow, wrapCol, spriteBit]

theorem draws_sprite (s : State) (x y : RegIdx) (n : Fin 16) :
    Draws (SpriteMask s x y n) (s.DISP, false) (s.sprite x y n) := by
  have hmask : BlitMask _ _ _ n.val = SpriteMask s x y n :=
    funext₂ fun r c => propext (blitMask_iff_spriteMask s x y n r c)
  exact hmask ▸ draws_blit _ _ n.val _ s.DISP (by omega)

/-- The collision is the mask meeting a lit pixel. -/
theorem sprite_collision_iff (s : State) (x y : RegIdx) (n : Fin 16) :
    (s.sprite x y n).2 = true ↔ ∃ r c, SpriteMask s x y n r c ∧ Display.pixel s.DISP r c = true :=
  (draws_sprite s x y n).collision.trans (by simp)

/-- Drawing one mask twice inverts each of its pixels twice, and no other pixel. -/
theorem Draws.twice {M : Fin 32 → Fin 64 → Prop} {a b b' c : Blit} (h : Draws M a b) (h' : Draws M b' c)
    (hsame : b'.1 = b.1) : c.1 = a.1 := by
  refine display_ext fun i j => ?_
  by_cases hm : M i j
  · rw [h'.inside i j hm, hsame, h.inside i j hm, Bool.not_not]
  · rw [h'.outside i j hm, hsame, h.outside i j hm]

/-! ### The state after a DRW -/

theorem drawn_DISP (s : State) (x y : RegIdx) (n : Fin 16) : (s.drawn x y n).DISP = (s.sprite x y n).1 := rfl

theorem drawn_vf (s : State) (x y : RegIdx) (n : Fin 16) :
    (s.drawn x y n).reg 15 = flagByte (s.sprite x y n).2 :=
  setReg_reg_self _ _ _

theorem changesOnly_drawn (s : State) (x y : RegIdx) (n : Fin 16) :
    ChangesOnly (fun p => p = .reg 15 ∨ ∃ r c, p = .pixel r c) s (s.drawn x y n) := by
  refine changesOnly_mono (changesOnly_trans (changesOnly_display s _) (changesOnly_setReg _ _ _)) ?_
  rintro p (⟨r, c, hp, -⟩ | hp)
  · exact .inr ⟨r, c, hp⟩
  · exact .inl hp

/-- Settles O35: past its two checks a DRW draws its mask, and VF takes the collision. -/
theorem drwXorsTheSpriteMask : Obligations.DrwXorsTheSpriteMask := by
  refine fun x y n => ⟨decodeWord_encode (i := .drw x y n) rfl, fun s => ⟨exec_drw_of_conflict, fun h => ?_⟩⟩
  rw [exec_drw_of_not_conflict h]
  refine ⟨fun hout => checkRange_of_not _ (by omega), fun hin => ⟨s.drawn x y n, checkRange_of_ok _ hin,
    (draws_sprite s x y n).inside, (draws_sprite s x y n).outside, fun hlit => ?_, fun hdark => ?_,
    changesOnly_drawn s x y n⟩⟩
  · rw [drawn_vf, (sprite_collision_iff s x y n).2 hlit]
    rfl
  · rw [drawn_vf, Bool.eq_false_iff.2 (mt (sprite_collision_iff s x y n).1 hdark)]
    rfl

/-! ### The same DRW again -/

/-- A DRW changes nothing its own mask depends on, unless a coordinate stands in VF. -/
theorem spriteMask_drawn (s : State) (n : Fin 16) (hx : x ≠ 15) (hy : y ≠ 15) :
    SpriteMask (s.drawn x y n) x y n = SpriteMask s x y n := by
  have hregx : (s.drawn x y n).reg x = s.reg x := setReg_reg_ne _ _ hx
  have hregy : (s.drawn x y n).reg y = s.reg y := setReg_reg_ne _ _ hy
  unfold SpriteMask
  rw [hregx, hregy]
  rfl

/-- Settles O36: the second DRW draws the mask of the first. -/
theorem drawingTwiceRestoresTheDisplay : Obligations.DrawingTwiceRestoresTheDisplay := by
  intro x y n s t hx hy h
  obtain ⟨hrange, rfl⟩ := (exec_drw_eq_next hx hy).1 h
  refine ⟨_, (exec_drw_eq_next hx hy).2 ⟨hrange, rfl⟩, ?_⟩
  have hagain := spriteMask_drawn s n hx hy ▸ draws_sprite (s.drawn x y n) x y n
  exact (draws_sprite s x y n).twice hagain rfl

end Sys2Proof.Machine
end

section
/-!
The index register, the timers and the key wait (spec/43_index_memory_timers.md R109 to R115; decisions D5, D12, D14; log
entry 3): writes of one part each, and the step around them where a rule speaks of the tick or of the repeated wait.
-/

namespace Sys2Proof.Machine

variable {s t : State}

/-- The step around a handler that answers next: the handler on the advanced state, then the tick (R59). -/
theorem step_of_exec_next (hs : s.status = .running) {w : Word} (hw : s.fetch = .ok w) {i : Instr}
    (hd : decodeWord w = .ok i) (hu : exec i (s.advance w) = .next t) : step s = .next t.tick :=
  (step_of_decoded hs hw hd).trans (congrArg (finishStep s) hu)

/-! ### I and the timers -/

/-- Settles O37: a write of I. -/
theorem ldISetsI : Obligations.LdISetsI :=
  fun nnn => ⟨decodeWord_encode (i := .ldI nnn) rfl,
    fun s => ⟨s.setI (zextAddr nnn), rfl, zextAddr_toNat nnn, changesOnly_setI s _⟩⟩

/-- Settles O38: a write of V[x] and a write of ST, each before the tick of its step. -/
theorem readDtAndSetSt : Obligations.ReadDtAndSetSt := by
  refine fun x => ⟨decodeWord_encode (i := .ldVxDt x) rfl, decodeWord_encode (i := .ldStVx x) rfl,
    fun s => ⟨next_setReg rfl fun _ ht => ht, ⟨_, rfl, rfl, changesOnly_setST s _⟩,
      fun w hs hw => ⟨fun hd => ?_, fun hd => ?_⟩⟩⟩
  · exact ⟨_, step_of_exec_next hs hw hd rfl, setReg_reg_self (s.advance w) x s.DT, countDown_toNat _⟩
  · exact ⟨_, step_of_exec_next hs hw hd rfl, countDown_toNat _⟩

/-- The value of Fx15 and Fx1E as a number, under both settings of ANOMALY_A_COMPAT (D5). -/
theorem anomalyValue_toNat {x : RegIdx} {v : Nat} (hvalue : s.config.anomalyACompat = false → v = (s.reg x).toNat)
    (hindex : s.config.anomalyACompat = true → v = x.val) : (anomalyValue s x).toNat = v := by
  unfold anomalyValue
  split
  · next h => rw [hindex h, BitVec.toNat_ofNat, Nat.mod_eq_of_lt (by omega)]
  · next h => rw [hvalue (Bool.eq_false_iff.2 h)]

/-- Settles O39: a write of DT and a write of I, of the one value ANOMALY_A_COMPAT selects. -/
theorem setDtAndAddToI : Obligations.SetDtAndAddToI := by
  refine fun x => ⟨decodeWord_encode (i := .ldDtVx x) rfl, decodeWord_encode (i := .addIVx x) rfl,
    fun s v hvalue hindex => ?_⟩
  have hv := anomalyValue_toNat hvalue hindex
  refine ⟨⟨s.setDT _, rfl, hv, changesOnly_setDT s _⟩, ⟨s.setI _, rfl, ?_, changesOnly_setI s _⟩⟩
  rw [setI_I, BitVec.toNat_add, zextByte_toNat, hv]

/-! ### The key wait -/

theorem lowestKey_eq_some {keys : Vector Bool 16} {k : RegIdx} (hk : keys[k] = true)
    (hlow : ∀ j : RegIdx, j < k → keys[j] = false) : lowestKey keys = some k := by
  refine List.find?_eq_some_iff_getElem.2 ⟨hk, k.val, by simp, List.getElem_finRange _, fun j hj => ?_⟩
  rw [List.getElem_finRange, Bool.not_eq_true']
  exact hlow _ hj

theorem lowestKey_eq_none {keys : Vector Bool 16} (h : ∀ k : RegIdx, keys[k] = false) : lowestKey keys = none :=
  List.find?_eq_none.2 fun k _ => Bool.eq_false_iff.1 (h k)

theorem exec_ldVxK_of_some {x k : RegIdx} (h : lowestKey s.KEY = some k) :
    exec (.ldVxK x) s = .next (s.setReg x (BitVec.ofNat 8 k.val)) := by
  simp only [exec, execLdVxK, h]

theorem exec_ldVxK_of_none {x : RegIdx} (h : lowestKey s.KEY = none) : exec (.ldVxK x) s = .next s.rewind := by
  simp only [exec, execLdVxK, h]

/-- The rewind takes back the advance: what is left of it is the scratch. -/
theorem advance_rewind_pc (s : State) (w : Word) : (s.advance w).rewind.pc = s.pc := by
  rw [rewind_pc, advance_pc, BitVec.add_sub_cancel]

theorem changesOnly_advance_rewind (s : State) (w : Word) :
    ChangesOnly (fun p => p = .opcode) s (s.advance w).rewind := by
  intro p hp
  cases p
  case pc => exact advance_rewind_pc s w
  case opcode => exact absurd rfl hp
  all_goals rfl

/-- Settles O40: with a key the wait is a write of V[x], without one the rewind undoes the advance of its step. -/
theorem keyWaitTakesLowestKeyOrRepeats : Obligations.KeyWaitTakesLowestKeyOrRepeats := by
  refine fun x => ⟨decodeWord_encode (i := .ldVxK x) rfl, fun s => ⟨fun k hk hlow => ?_, fun hnone => ?_⟩⟩
  · refine next_setReg (exec_ldVxK_of_some (lowestKey_eq_some hk hlow)) fun t ht => ?_
    rw [ht, BitVec.toNat_ofNat, Nat.mod_eq_of_lt (by omega)]
  · have hkey : lowestKey s.KEY = none := lowestKey_eq_none hnone
    refine ⟨⟨_, exec_ldVxK_of_none hkey, rfl, changesOnly_rewind s⟩, fun w hs hw hd => ?_⟩
    refine ⟨_, step_of_exec_next hs hw hd (exec_ldVxK_of_none hkey), advance_rewind_pc s w, countDown_toNat _,
      countDown_toNat _, ?_⟩
    refine changesOnly_mono (changesOnly_trans (changesOnly_advance_rewind s w) (changesOnly_tick _)) ?_
    rintro p (hp | hp | hp) <;> simp [hp]

/-! ### The glyph address -/

theorem glyphAddr_toNat (d : Byte) : (glyphAddr d).toNat = 0x50 + 5 * d.toNat := by
  have hd := d.isLt
  rw [glyphAddr, BitVec.toNat_ofNat, fontBase]
  omega

theorem withFontDigit_of_fault {x : RegIdx} (f : Byte → Out)
    (h : (s.reg x).toNat > 15 ∧ s.config.fontDigitPolicy = .fault) : withFontDigit s x f = .fault .undefined :=
  if_pos h

/-- A font digit in range, or used unmasked, is V[x] itself (D12). -/
theorem withFontDigit_of_digit {x : RegIdx} (f : Byte → Out)
    (h : (s.reg x).toNat ≤ 15 ∨ s.config.fontDigitPolicy = .unmasked) : withFontDigit s x f = f (s.reg x) := by
  refine if_neg ?_
  rintro ⟨hbig, hfault⟩
  rcases h with hsmall | hunmasked
  · omega
  · cases hfault.symm.trans hunmasked

theorem exec_ldFVx (x : RegIdx) (s : State) :
    exec (.ldFVx x) s = withFontDigit s x fun d => .next (s.setI (glyphAddr d)) := rfl

/-- Settles O41: where the digit is legal, a write of I. -/
theorem ldFPointsAtTheGlyph : Obligations.LdFPointsAtTheGlyph := by
  refine fun x => ⟨decodeWord_encode (i := .ldFVx x) rfl, fun s => ⟨fun h => ?_, fun h => ?_⟩⟩
  · exact (exec_ldFVx x s).trans (withFontDigit_of_fault _ h)
  · exact ⟨_, (exec_ldFVx x s).trans (withFontDigit_of_digit _ h), glyphAddr_toNat _, changesOnly_setI s _⟩

end Sys2Proof.Machine
end

section
/-!
Memory transfers (spec/43_index_memory_timers.md R116 to R118; spec/20_memory.md R45, R48; decisions D4, D7, D16; log entry
4): a run of stores as a whole, then the digits and the two register blocks.
-/

namespace Sys2Proof.Machine

variable {s t : State}

/-! ### A run of stores -/

section Run

variable {a : Nat} {vs : List Byte}

theorem storeBytes_of_out (hvs : vs ≠ [])
    (h : a + vs.length > 4096 ∨ (s.config.lowMemoryWrites = .fault ∧ a < 0x200)) :
    storeBytes s a vs = .fault .outOfBounds := by
  rw [storeBytes_eq_ite, if_neg]
  rintro (hnil | ⟨hin, hlow⟩)
  · exact hvs hnil
  · rcases h with hout | ⟨hfault, hbelow⟩
    · omega
    · rcases hlow with hallow | habove
      · cases hfault.symm.trans hallow
      · omega

/-- The range check before a run of stores (R48) adds nothing to the bounds of the stores themselves. -/
theorem checkRange_storeBytes (s : State) (a : Nat) (vs : List Byte) :
    checkRange a vs.length (storeBytes s a vs) = storeBytes s a vs := by
  by_cases h : vs.length = 0 ∨ a + vs.length ≤ 4096
  · exact checkRange_of_ok _ h
  · have hvs : vs ≠ [] := fun hnil => h (.inl (congrArg List.length hnil))
    exact (checkRange_of_not _ h).trans (storeBytes_of_out hvs (.inl (by omega))).symm

theorem exists_storeBytes_of_in (h : a + vs.length ≤ 4096 ∧ (s.config.lowMemoryWrites = .allow ∨ 0x200 ≤ a)) :
    ∃ t, storeBytes s a vs = .next t :=
  ⟨_, storeBytes_eq_next.2 ⟨.inr h, rfl⟩⟩

/-- The bytes stored are the bytes read back, where memory is canonical (log entry 4). -/
theorem storeBytes_byteAt (hs : MemCanonical s) (h : storeBytes s a vs = .next t) {k : Nat} {v : Byte}
    (hk : vs[k]? = some v) : t.byteAt (a + k) = v := by
  obtain ⟨hnil | ⟨hin, -⟩, rfl⟩ := storeBytes_eq_next.1 h
  · simp [hnil] at hk
  · have hread := read_copyIn hs a vs hin (a + k)
    rw [if_pos (Nat.le_add_right a k), Nat.add_sub_cancel_left, hk] at hread
    exact hread

end Run

/-! ### The decimal digits -/

theorem exec_ldBVx (x : RegIdx) (s : State) :
    exec (.ldBVx x) s = storeBytes s s.I.toNat (bcdDigits (s.reg x)) :=
  checkRange_storeBytes s _ (bcdDigits (s.reg x))

/-- Settles O42: a run of three stores, of the digits of V[x]. -/
theorem ldBStoresTheDecimalDigits : Obligations.LdBStoresTheDecimalDigits := by
  refine fun x => ⟨decodeWord_encode (i := .ldBVx x) rfl, fun s hs => ?_⟩
  rw [exec_ldBVx]
  refine ⟨fun hout => storeBytes_of_out (List.cons_ne_nil _ _) hout, fun hin => ?_⟩
  obtain ⟨t, ht⟩ : ∃ t, storeBytes s s.I.toNat (bcdDigits (s.reg x)) = .next t := exists_storeBytes_of_in hin
  have hv := (s.reg x).isLt
  have hdigit {k n : Nat} (hk : (bcdDigits (s.reg x))[k]? = some (BitVec.ofNat 8 n)) (hn : n < 256) :
      (t.byteAt (s.I.toNat + k)).toNat = n := by
    rw [storeBytes_byteAt hs ht hk, BitVec.toNat_ofNat, Nat.mod_eq_of_lt hn]
  exact ⟨t, ht, hdigit (k := 0) rfl (by omega), hdigit rfl (by omega), hdigit rfl (by omega),
    changesOnly_storeBytes ht⟩

/-! ### I after a register block -/

theorem advanceI_I (s : State) (x : RegIdx) :
    (s.advanceI x).I = if s.config.loadStoreIncrementsI then s.I + BitVec.ofNat 16 (x.val + 1) else s.I := by
  unfold State.advanceI
  split <;> rfl

theorem advanceI_I_of_not_increments (x : RegIdx) (h : s.config.loadStoreIncrementsI = false) :
    (s.advanceI x).I = s.I := by
  simp [advanceI_I, h]

theorem advanceI_I_toNat_of_increments (x : RegIdx) (h : s.config.loadStoreIncrementsI = true) :
    (s.advanceI x).I.toNat = (s.I.toNat + x.val + 1) % 65536 := by
  rw [advanceI_I, if_pos h, BitVec.toNat_add, BitVec.toNat_ofNat]
  omega

theorem advanceI_reg (s : State) (x z : RegIdx) : (s.advanceI x).reg z = s.reg z :=
  changesOnly_advanceI s x (.reg z) (by simp)

theorem advanceI_byteAt (s : State) (x : RegIdx) (a : Nat) : (s.advanceI x).byteAt a = s.byteAt a :=
  changesOnly_advanceI s x (.byte a) (by simp)

/-! ### The block store -/

/-- The byte of a register block at a register's index is that register. -/
theorem regBlock_getElem? (s : State) {x z : RegIdx} (h : z ≤ x) : (s.regBlock x)[z.val]? = some (s.reg z) := by
  have hz : z.val < x.val + 1 := Nat.lt_succ_of_le h
  simp [State.regBlock, State.reg, hz]

theorem regBlock_ne_nil (s : State) (x : RegIdx) : s.regBlock x ≠ [] :=
  List.ne_nil_of_length_eq_add_one (regBlock_length s x)

/-- A block store that is not stopped is its run of stores, then the advance of I. -/
theorem exec_ldMemVx_of_next {x : RegIdx} (h : storeBytes s s.I.toNat (s.regBlock x) = .next t) :
    exec (.ldMemVx x) s = .next (t.advanceI x) := by
  obtain ⟨hrange, -⟩ := checkRange_eq_next.1 ((checkRange_storeBytes s _ _).trans h)
  rw [regBlock_length] at hrange
  rw [exec, execLdMemVx, checkRange_of_ok _ hrange, h]

theorem exec_ldMemVx_of_fault {x : RegIdx} (h : storeBytes s s.I.toNat (s.regBlock x) = .fault .outOfBounds) :
    exec (.ldMemVx x) s = .fault .outOfBounds := by
  rw [exec, execLdMemVx, h]
  exact ite_self _

/-- A block store that answers next ran its stores. -/
theorem storeBytes_of_exec_ldMemVx {x : RegIdx} (h : exec (.ldMemVx x) s = .next t) :
    ∃ u, storeBytes s s.I.toNat (s.regBlock x) = .next u ∧ u.advanceI x = t := by
  rcases storeBytes_cases s s.I.toNat (s.regBlock x) with ⟨u, hu⟩ | hfault
  · exact ⟨u, hu, Host.Outcome.next.inj ((exec_ldMemVx_of_next hu).symm.trans h)⟩
  · cases (exec_ldMemVx_of_fault hfault).symm.trans h

/-- After a block store the bytes from I on are V0 to Vx (R117). -/
theorem exec_ldMemVx_byteAt {x z : RegIdx} (hs : MemCanonical s) (h : exec (.ldMemVx x) s = .next t) (hz : z ≤ x) :
    t.byteAt (s.I.toNat + z.val) = s.reg z := by
  obtain ⟨u, hu, rfl⟩ := storeBytes_of_exec_ldMemVx h
  rw [advanceI_byteAt, storeBytes_byteAt hs hu (regBlock_getElem? s hz)]

/-- The addresses a block store may write are those of the registers up to x. -/
theorem exec_ldMemVx_changesOnly {x : RegIdx} (h : exec (.ldMemVx x) s = .next t) :
    ChangesOnly (fun p => p = .I ∨ ∃ z : RegIdx, z ≤ x ∧ p = .byte (s.I.toNat + z.val)) s t := by
  refine changesOnly_mono (exec_changesOnly h) ?_
  rintro p (⟨hp, -⟩ | ⟨k, hk, hp⟩)
  · exact .inl hp
  · exact .inr ⟨⟨k, Nat.lt_of_le_of_lt hk x.isLt⟩, hk, hp⟩

/-- Settles O43: a run of stores of the register block, then the advance of I. -/
theorem storeBlockWritesV0ToVx : Obligations.StoreBlockWritesV0ToVx := by
  refine fun x => ⟨decodeWord_encode (i := .ldMemVx x) rfl, fun s hs => ?_⟩
  have hlen := regBlock_length s x
  refine ⟨fun hout => exec_ldMemVx_of_fault (storeBytes_of_out (regBlock_ne_nil s x) ?_), fun hin => ?_⟩
  · rwa [hlen, ← Nat.add_assoc]
  · obtain ⟨u, hu⟩ : ∃ u, storeBytes s s.I.toNat (s.regBlock x) = .next u := by
      refine exists_storeBytes_of_in ?_
      rwa [hlen, ← Nat.add_assoc]
    have hexec := exec_ldMemVx_of_next hu
    have hI : u.I = s.I := changesOnly_storeBytes hu .I (by simp)
    have hconfig : u.config = s.config := changesOnly_storeBytes hu .config (by simp)
    refine ⟨_, hexec, fun z => exec_ldMemVx_byteAt hs hexec, fun hkeep => ?_, fun hinc => ?_,
      exec_ldMemVx_changesOnly hexec⟩
    · rw [advanceI_I_of_not_increments x (hconfig ▸ hkeep), hI]
    · rw [advanceI_I_toNat_of_increments x (hconfig ▸ hinc), hI]

/-! ### The block load -/

/-- The state a block load answers (R118). -/
def State.blockLoaded (s : State) (x : RegIdx) : State := (s.loadRegs x s.I.toNat).advanceI x

theorem exec_ldVxMem (x : RegIdx) (s : State) :
    exec (.ldVxMem x) s = checkRange s.I.toNat (x.val + 1) (.next (s.blockLoaded x)) := rfl

theorem blockLoaded_reg (s : State) (x z : RegIdx) :
    (s.blockLoaded x).reg z = if z ≤ x then s.byteAt (s.I.toNat + z.val) else s.reg z := by
  rw [State.blockLoaded, advanceI_reg, loadRegs_reg]

/-- A block load leaves I as the advance alone would. -/
theorem blockLoaded_I (s : State) (x : RegIdx) : (s.blockLoaded x).I = (s.advanceI x).I := by
  rw [State.blockLoaded, advanceI_I, loadRegs_config, loadRegs_I, advanceI_I]

theorem V_eq_of_reg_eq (h : ∀ z, t.reg z = s.reg z) : t.V = s.V :=
  Vector.ext fun i hi => h ⟨i, hi⟩

/-- Settles O44: a block load reads register by register what the block store of the same registers left. -/
theorem loadBlockReadsV0ToVx : Obligations.LoadBlockReadsV0ToVx := by
  refine fun x => ⟨decodeWord_encode (i := .ldVxMem x) rfl, fun s => ⟨fun hout => ?_, fun hin => ?_⟩,
    fun s t hs h => ?_⟩
  · exact (exec_ldVxMem x s).trans (checkRange_of_not _ (by omega))
  · have hexec : exec (.ldVxMem x) s = .next (s.blockLoaded x) :=
      (exec_ldVxMem x s).trans (checkRange_of_ok _ (.inr hin))
    refine ⟨_, hexec, fun z hz => ?_, fun hkeep => ?_, fun hinc => ?_,
      changesOnly_mono (exec_changesOnly hexec) fun _ => Or.imp_left And.left⟩
    · rw [blockLoaded_reg, if_pos hz]
    · rw [blockLoaded_I, advanceI_I_of_not_increments x hkeep]
    · rw [blockLoaded_I, advanceI_I_toNat_of_increments x hinc]
  · obtain ⟨hrange, -⟩ := checkRange_eq_next.1 h
    refine ⟨_, (exec_ldVxMem x _).trans (checkRange_of_ok _ hrange), V_eq_of_reg_eq fun z => ?_⟩
    rw [blockLoaded_reg]
    split
    · next hz => exact (exec_ldMemVx_byteAt hs h hz :)
    · exact exec_changesOnly h (.reg z) (by simp [writes])

end Sys2Proof.Machine
end

section
/-!
What a fault, a tick and the host's ports do (spec/60_exceptions.md R121, R122, R128 to R134; decisions D8, D24, D28): the
step that commits nothing, the step that is refused, the step that only counts down, and what the host writes and reads.
-/

namespace Sys2Proof.Machine

variable {s t : State}

/-! ### What a step keeps -/

/-- No handler writes the status: a fault alone halts the block (R121). -/
theorem exec_status {i : Instr} (h : exec i s = .next t) : t.status = s.status :=
  exec_changesOnly h .status (by cases i <;> simp [writes])

/-- No handler writes a key (R31). -/
theorem exec_KEY {i : Instr} (h : exec i s = .next t) : t.KEY = s.KEY :=
  Vector.ext fun k hk => exec_changesOnly h (.key ⟨k, hk⟩) (by cases i <;> simp [writes])

/-- A step sees one keypad and leaves it (R130). -/
theorem step_KEY (h : step s = .next t) : t.KEY = s.KEY := by
  obtain ⟨-, ⟨k, rfl⟩ | ⟨w, i, u, -, -, hu, rfl⟩⟩ := step_cases h
  · rfl
  · rw [tick_KEY, exec_KEY hu, advance_KEY]

/-- Settles O10: a step that ran a handler to its tick ends with the status it began with, so a step that does not end
Running took a fault. -/
theorem faultingStepCommitsNothing : Obligations.FaultingStepCommitsNothing := by
  intro s t hs hstep hhalted
  obtain ⟨-, hfault | ⟨w, i, u, -, -, hu, rfl⟩⟩ := step_cases hstep
  · exact hfault
  · exact absurd ((exec_status hu).trans hs) hhalted

/-! ### The tick (R128) -/

/-- Settles O8: the tick is applied to what the handler left. -/
theorem timerTickEndsEveryStep : Obligations.TimerTickEndsEveryStep :=
  fun _ u _ _ hs hw hi hu =>
    ⟨u.tick, step_of_exec_next hs hw hi hu, countDown_toNat _, countDown_toNat _, changesOnly_tick u⟩

/-! ### The idle loop (R134) -/

/-- What a step of an idle loop leaves: the jump undoes the advance, so only the scratch and the tick remain. -/
def State.idled (s : State) : State := ((s.advance s.fetchWord).setPc s.pc).tick

/-- An address inside memory is its own low 12 bits. -/
theorem zextAddr_setWidth {a : Word} (h : a.toNat ≤ 0xFFE) : zextAddr (a.setWidth 12) = a := by
  apply BitVec.eq_of_toNat_eq
  rw [zextAddr_toNat, BitVec.toNat_setWidth, Nat.mod_eq_of_lt (by omega)]

theorem step_of_idleLoop (h : s.IdleLoop) : step s = .next s.idled := by
  obtain ⟨hs, hpc, hd⟩ := h
  have hjump : exec (.jp (s.pc.setWidth 12)) (s.advance s.fetchWord) = .next ((s.advance s.fetchWord).setPc s.pc) := by
    rw [exec, execJp, zextAddr_setWidth hpc]
  exact step_of_exec_next hs (fetch_eq_ok.2 ⟨by omega, rfl⟩) hd hjump

/-- Memory and pc are as they were, so the same jump stands at the same pc. -/
theorem idled_idleLoop (h : s.IdleLoop) : s.idled.IdleLoop := h

theorem changesOnly_idled (s : State) : ChangesOnly (fun p => p = .DT ∨ p = .ST ∨ p = .opcode) s s.idled := by
  intro p hp
  cases p
  case DT => exact absurd (.inl rfl) hp
  case ST => exact absurd (.inr (.inl rfl)) hp
  case opcode => exact absurd (.inr (.inr rfl)) hp
  all_goals rfl

/-- Settles O48: the step of an idle loop is `State.idled`. -/
theorem idleLoopOnlyTicks : Obligations.IdleLoopOnlyTicks := fun s h =>
  ⟨s.idled, step_of_idleLoop h, idled_idleLoop h, countDown_toNat _, countDown_toNat _, changesOnly_idled s⟩

/-! ### The keypad (R130) -/

theorem writeKey_of_out {k : Nat} (h : ¬ k < 16) (pressed : Bool) : s.writeKey k pressed = s := dif_neg h

/-- A key read after a key write. -/
theorem writeKey_key (s : State) (k j : RegIdx) (pressed : Bool) :
    (s.writeKey k.val pressed).KEY[j] = if k.val = j.val then pressed else s.KEY[j] := by
  rw [State.writeKey, dif_pos k.isLt]
  exact Vector.getElem_set k.isLt j.isLt

theorem changesOnly_writeKey (s : State) (k : RegIdx) (pressed : Bool) :
    ChangesOnly (fun p => p = .key k) s (s.writeKey k.val pressed) := by
  rw [writeKey_eq]
  intro p hp
  cases p
  case key j => exact (writeKey_key s k j pressed).trans (if_neg fun hkj => hp (congrArg Part.key (Fin.ext hkj.symm)))
  all_goals rfl

/-- Settles O14: a key write is one write of the key vector or none, and a step keeps every key. -/
theorem keypadIsWrittenByTheHostAlone : Obligations.KeypadIsWrittenByTheHostAlone := by
  refine ⟨fun s k pressed => ⟨fun hk => ?_, fun hk => writeKey_of_out hk pressed⟩, fun _ _ => step_KEY⟩
  exact ⟨(writeKey_key s ⟨k, hk⟩ ⟨k, hk⟩ pressed).trans (if_pos rfl), changesOnly_writeKey s ⟨k, hk⟩ pressed⟩

/-! ### The halted block (R122) -/

theorem writeKey_status (s : State) (k : Nat) (pressed : Bool) : (s.writeKey k pressed).status = s.status := by
  rw [writeKey_eq]

theorem requestStep_of_halted {k : Fault} (h : s.status = .halted k) : s.requestStep = s := by
  rw [State.requestStep, step_of_halted h]

/-- A load that fits in 3584 bytes leaves the block Running (R139). -/
theorem loadProgram_status {bytes : List Byte} (h : bytes.length ≤ 3584) : (s.loadProgram bytes).status = .running := by
  have hfits : ¬ bytes.length > maxProgram := Nat.not_lt.2 h
  rw [State.loadProgram, if_neg hfits]
  rfl

/-- Settles O11, move by move: a refused step and a key write keep the status, a reset and a load write it. -/
theorem haltedBlockRefusesSteps : Obligations.HaltedBlockRefusesSteps := by
  intro s k hs
  have hstep : s.move .step = s := requestStep_of_halted hs
  have hstuck : ¬ s.status = .running := by simp [hs]
  refine ⟨step_of_halted hs, hstep, fun m hm => ?_, rfl, fun _ => loadProgram_status⟩
  cases m with
  | step => exact absurd (hstep ▸ hm) hstuck
  | key j pressed => exact absurd ((writeKey_status s j pressed).symm.trans hm) hstuck
  | load bytes => exact .inr ⟨bytes, rfl⟩
  | reset => exact .inl rfl

/-! ### The read-outs (R131, R132) -/

/-- Settles O15: the display read-out lists the rows, and the tone compares ST with 0. -/
theorem readOutsShowTheState : Obligations.ReadOutsShowTheState := by
  refine fun s => ⟨fun r c => ?_, ?_, fun row hrow => ?_, bne_iff_ne⟩
  · simp [State.displayOut, Display.pixel]
  · simp [State.displayOut]
  · obtain ⟨v, -, rfl⟩ := List.mem_map.1 hrow
    exact v.length_toList

end Sys2Proof.Machine
end

section
/-!
Reset and program load (spec/70_reset_and_hazards.md R138, R139; spec/20_memory.md R42, R44; decisions D13, D27): what the
fresh memory reads as, and the two outcomes of a load.
-/

namespace Sys2Proof.Machine

variable {s : State} {bytes : List Byte}

/-! ### Reset (R138) -/

/-- The font stands at 0x50 in a fresh memory (R42). -/
theorem unlisted_font (font : Vector Byte 80) {k : Nat} (hk : k < 80) : Memory.unlisted font (0x50 + k) = font[k] := by
  have hin : fontBase ≤ 0x50 + k ∧ 0x50 + k - fontBase < 80 := by
    simp only [fontBase]
    omega
  rw [Memory.unlisted, dif_pos hin]
  simp only [fontBase, Nat.add_sub_cancel_left]

/-- Outside the font a fresh memory is 0 (R42). -/
theorem unlisted_of_out (font : Vector Byte 80) {a : Nat} (ha : a < 0x50 ∨ 0x50 + 80 ≤ a) :
    Memory.unlisted font a = 0 := by
  refine dif_neg ?_
  simp only [fontBase]
  omega

/-- No byte is listed after a reset. -/
theorem hostReset_byteAt (s : State) (a : Nat) : s.hostReset.byteAt a = Memory.unlisted s.config.font a := rfl

/-- Settles O12: the memory reads as nothing listed, each vector is constant, and every other field is a constant or kept. -/
theorem resetValues : Obligations.ResetValues := by
  refine ⟨rfl, ?_⟩
  rintro s _ rfl
  have hreg (x : RegIdx) : s.hostReset.reg x = 0 := Vector.getElem_replicate x.isLt
  have hstack (j : Fin 16) : s.hostReset.STACK[j] = 0 := Vector.getElem_replicate j.isLt
  have hkey (k : RegIdx) : s.hostReset.KEY[k] = false := Vector.getElem_replicate k.isLt
  have hfont (k : Nat) (hk : k < 80) : s.hostReset.byteAt (0x50 + k) = s.config.font[k] :=
    (hostReset_byteAt s _).trans (unlisted_font _ hk)
  have hzero (a : Nat) (ha : a < 0x50 ∨ 0x50 + 80 ≤ a) : s.hostReset.byteAt a = 0 :=
    (hostReset_byteAt s a).trans (unlisted_of_out _ ha)
  exact ⟨hreg, rfl, rfl, rfl, hstack, rfl, rfl, hkey, pixel_clear, hfont, hzero, rfl, rfl, rfl, rfl⟩

/-! ### Program load (R139) -/

/-- A program that fits is copied to 0x200 of the fresh state. -/
theorem loadProgram_of_fits (h : bytes.length ≤ 3584) :
    s.loadProgram bytes =
      { s.hostReset with mem := Memory.copyIn s.hostReset.config.font s.hostReset.mem programBase bytes } :=
  if_neg (Nat.not_lt.2 h)

/-- A program that does not fit halts the fresh state (D27). -/
theorem loadProgram_of_tooLarge (h : bytes.length > 3584) :
    s.loadProgram bytes = s.hostReset.takeFault .programTooLarge := if_pos h

/-- The bytes loaded are the bytes read back: the fresh memory is canonical and the copy ends inside it. -/
theorem loadProgram_byteAt (h : bytes.length ≤ 3584) {k : Nat} (hk : k < bytes.length) :
    (s.loadProgram bytes).byteAt (0x200 + k) = bytes[k] := by
  have hin : programBase + bytes.length ≤ memSize := Nat.add_le_add_left h 0x200
  have hread := read_copyIn (font := s.config.font) wf_nil programBase bytes hin (programBase + k)
  rw [if_pos (Nat.le_add_right _ _), Nat.add_sub_cancel_left, List.getElem?_eq_getElem hk] at hread
  rw [loadProgram_of_fits h]
  exact hread

/-- Settles O13: a program that fits is one copy into the fresh state, a longer one is one fault taken in it. -/
theorem loadPlacesProgram : Obligations.LoadPlacesProgram := by
  refine fun s bytes => ⟨fun hfits => ⟨fun k hk => loadProgram_byteAt hfits hk, ?_⟩, loadProgram_of_tooLarge⟩
  rw [loadProgram_of_fits hfits]
  exact changesOnly_copyIn s.hostReset programBase bytes

end Sys2Proof.Machine
end
